-- ==== Sys2Proof/Word.lean ====
section
/-! DEFINITION. The word types of the block (spec/00_scope.md R4, R5): every value the manual treats as bits. -/

namespace Sys2Proof

/-- A bus word, a group word, a command word: 32 bits (R4). -/
abbrev Word := BitVec 32

/-- A character or a raw byte: 8 bits (R4). -/
abbrev Byte := BitVec 8

/-- A base-85 digit: 7 bits (R4). -/
abbrev Digit := BitVec 7

/-- A byte offset in the register space: 6 bits (R4, R60). -/
abbrev Offset := BitVec 6

/-- One value for each of the five character lanes of a group, lane 0 first in the stream (R5, R38). -/
structure Lanes (α : Type) where
  l0 : α
  l1 : α
  l2 : α
  l3 : α
  l4 : α
  deriving DecidableEq, Repr

end Sys2Proof
end

