-- ==== Sys2Proof/Syntax.lean ====
section
/-! DEFINITION. The eight commands of the block, one constructor per row of spec/opcode_table.json (R94). -/

namespace Sys2Proof

/-- A command. The one immediate is the 3-bit field CNT (R91): the number of real bytes `nb` of an `ENC`, the
number of real characters `nc` of a `DEC`. Every other operand is a register the command implies. -/
inductive Instr where
  | nop
  | enc (nb : BitVec 3)
  | dec (nc : BitVec 3)
  | pade
  | padd
  | alook
  | ilook
  | srst
  deriving DecidableEq, Repr

end Sys2Proof
end

