-- ==== Sys2Proof/WellFormed.lean ====
section
/-! DEFINITION. Which commands have a legal word (spec/30_encoding.md R91, R92): the range of CNT. -/

namespace Sys2Proof

/-- `ENC` takes a count of 1 to 4 and `DEC` one of 1 to 5; the other commands have no operand to check (R91). -/
def Instr.wellFormed : Instr → Bool
  | .nop => true
  | .enc nb => decide (1 ≤ nb.toNat) && decide (nb.toNat ≤ 4)
  | .dec nc => decide (1 ≤ nc.toNat) && decide (nc.toNat ≤ 5)
  | .pade => true
  | .padd => true
  | .alook => true
  | .ilook => true
  | .srst => true

/-- The command has a legal word. -/
abbrev Instr.WellFormed (i : Instr) : Prop := i.wellFormed = true

end Sys2Proof
end

