-- ==== Sys2Proof/Decode.lean ====
section
/-! DEFINITION. The command format of spec/30_encoding.md: the decoder, total on 32-bit words, and after it the
encoder. The bus moves only whole words (R61, R69), so the decoder takes a word and no byte order arises. -/

namespace Sys2Proof

/-- OP, bits 3..0 (R90). -/
def opField (w : Word) : BitVec 4 := w.extractLsb' 0 4

/-- CNT, bits 6..4 (R90). -/
def cntField (w : Word) : BitVec 3 := w.extractLsb' 4 3

/-- RSV, bits 31..7 (R90). -/
def rsvField (w : Word) : BitVec 25 := w.extractLsb' 7 25

/-- Why a word is no command (R93). The machine answers each of them in the same way, by ILLCMD. -/
inductive DecodeError where
  /-- A bit of `w[31:7]` is set. -/
  | reservedBits (rsv : BitVec 25)
  /-- The opcode is one of 0x8 to 0xF. -/
  | reservedOpcode (op : BitVec 4)
  /-- CNT lies outside the opcode's legal range. -/
  | countOutOfRange (op : BitVec 4) (cnt : BitVec 3)
  deriving DecidableEq, Repr

/-- The command an opcode names, its count taken from CNT where it has one (the opcode map, R94). -/
def instrOfOpcode (op : BitVec 4) (cnt : BitVec 3) : Option Instr :=
  match op.toNat with
  | 0x0 => some .nop
  | 0x1 => some (.enc cnt)
  | 0x2 => some (.dec cnt)
  | 0x3 => some .pade
  | 0x4 => some .padd
  | 0x5 => some .alook
  | 0x6 => some .ilook
  | 0x7 => some .srst
  | _ => none

/-- The counts an opcode may carry (the range of CNT in `Legal`, R92). -/
def countLegal (op : BitVec 4) (cnt : BitVec 3) : Bool :=
  match op.toNat with
  | 0x1 => decide (1 ≤ cnt.toNat) && decide (cnt.toNat ≤ 4)
  | 0x2 => decide (1 ≤ cnt.toNat) && decide (cnt.toNat ≤ 5)
  | _ => decide (cnt.toNat = 0)

/-- The decoder: the command a word stands for, or why it stands for none (R92, R93). -/
def decode (w : Word) : Except DecodeError Instr :=
  if rsvField w = 0#25 then
    match instrOfOpcode (opField w) (cntField w) with
    | some i =>
      if countLegal (opField w) (cntField w) then .ok i
      else .error (.countOutOfRange (opField w) (cntField w))
    | none => .error (.reservedOpcode (opField w))
  else .error (.reservedBits (rsvField w))

/-- The opcode of a command (R94). -/
def opOf : Instr → BitVec 4
  | .nop => 0x0#4
  | .enc _ => 0x1#4
  | .dec _ => 0x2#4
  | .pade => 0x3#4
  | .padd => 0x4#4
  | .alook => 0x5#4
  | .ilook => 0x6#4
  | .srst => 0x7#4

/-- The CNT field of a command (R91). -/
def cntOf : Instr → BitVec 3
  | .enc nb => nb
  | .dec nc => nc
  | .nop => 0#3
  | .pade => 0#3
  | .padd => 0#3
  | .alook => 0#3
  | .ilook => 0#3
  | .srst => 0#3

/-- The encoder: RSV = 0, then CNT, then OP, from the high bits down (R90). -/
def encode (i : Instr) : Word := 0#25 ++ cntOf i ++ opOf i

/-- The host's question about one opcode-table row: the command the decoder reads from the word whose bits are
`w`, bits from `nbits` up zero. A command has 32 bits and no more (R90). -/
def decodeTableWord (nbits w : Nat) : Option Instr :=
  if w % 2 ^ nbits < 2 ^ 32 then (decode (BitVec.ofNat 32 (w % 2 ^ nbits))).toOption else none

end Sys2Proof
end

