-- ==== Sys2Proof/Config.lean ====
section
/-! DEFINITION. The implementation parameters of spec/00_scope.md R4 that stay open.
None of them changes a result, so none is read by a command: `Extractor` names the two ways of building the
digit extractor (R157), whose digits `Machine/Encoder.lean` gives for each; BASE_ADDR is an argument of
`Machine.offsetAt` (R60); CMD_LATENCY is time, which no rule depends on (R346). See log 9. -/

namespace Sys2Proof

/-- The parameter EXTRACTOR of R4: how an implementation builds the radix-85 digit extractor. -/
inductive Extractor where
  | divider
  | lut
  deriving DecidableEq, Repr

end Sys2Proof
end

