-- ==== Sys2Proof/Machine/State.lean ====
section
/-! DEFINITION. The state of the block and of the run of its host program (spec/10_state.md). -/

namespace Sys2Proof.Machine

/-- The fifteen mapped registers of R21. -/
inductive Reg where
  | id
  | cmd
  | status
  | word
  | cha
  | chb
  | diga
  | digb
  | keep
  | len
  | padinfo
  | groups
  | outlen
  | lutin
  | lutout
  deriving DecidableEq, Repr

/-- The four sticky flags of STATUS (R31). OVF is hardwired 0 and ERR is computed, so neither is stored. -/
inductive Flag where
  | invchar
  | illcmd
  | range
  | wide
  deriving DecidableEq, Repr

/-- The cause codes of R307: names for what one bus access meets; no register holds one. -/
inductive Cause where
  | none
  | invalidCharacter
  | overflow
  | illegalCommand
  | range
  | wide
  | busError
  deriving DecidableEq, Repr

/-- The stored bits of STATUS (R31): the four sticky flags and ERRIDX. -/
structure Status where
  invchar : Bool
  illcmd : Bool
  range : Bool
  wide : Bool
  erridx : BitVec 3
  deriving DecidableEq, Repr

/-- The fields of PADINFO (R29). -/
structure PadInfo where
  pad : BitVec 3
  lastn : BitVec 3
  outhi : Bool
  deriving DecidableEq, Repr

/-- The fields of LUTOUT (R35). -/
structure LutOut where
  valid : Bool
  data : Byte
  deriving DecidableEq, Repr

/-- The registers of the block (R21 to R36), each with the bits it stores: a reserved bit reads 0 and ignores
writes (R67), so it has no storage (log 13). ID is a constant and CMD holds no state (R22, R36). `digits` are
the five digits of R26: DIGA reads lanes 0 to 3, DIGB lane 4. -/
structure Regs where
  status : Status
  word : Word
  cha : Word
  chb : Byte
  digits : Lanes Digit
  keep : BitVec 3
  len : Word
  padinfo : PadInfo
  groups : Word
  outlen : Word
  lutin : Byte
  lutout : LutOut
  deriving DecidableEq, Repr

/-- What the port receives next: a bus access of the host, with its byte offset, its size in bytes and, for a
write, its data (R62, R63, R96), or the hardware reset input (R341; log 4). -/
inductive BusEvent where
  | read (addr : Offset) (size : Nat)
  | write (addr : Offset) (size : Nat) (data : Word)
  | hardReset
  deriving DecidableEq, Repr

/-- What the port answered an access (R64, R347; log 5). A read that faults carries the data value 0 (R64). -/
inductive Response where
  | readData (value : Word)
  | writeDone
  | readError
  | writeError
  deriving DecidableEq, Repr

/-- The machine: the block's registers, and the run of the host's program (R20, R347): `pc`, the index of the
next access; `pending`, the accesses still to be performed, the next one first; `responses`, what the port has
answered, the oldest first (logs 1 and 5). -/
structure State where
  regs : Regs
  pc : Nat
  pending : List BusEvent
  responses : List Response
  deriving DecidableEq, Repr

/-- Why a step stops. -/
inductive Fault where
  /-- Raised by a bus read or write of a size other than 4, at an offset that is no multiple of 4, or at offset
  0x3C (R61, R64, R65, R306). The spec calls this a fault of the bus step with no state change: safe. The host
  may go on after it, which is `hostStep` (log 3). -/
  | busError (addr : Offset) (size : Nat)
  deriving DecidableEq, Repr

/-- Why an instruction has no meaning. -/
inductive Refusal where
  /-- Raised by an arm of `exec` whose command has no meaning yet; no arm does so. Safe. -/
  | notModelled (mnemonic : String)
  deriving DecidableEq, Repr

/-- The registers after reset (R340): every stored bit 0. -/
def Regs.reset : Regs where
  status := ⟨false, false, false, false, 0#3⟩
  word := 0#32
  cha := 0#32
  chb := 0#8
  digits := ⟨0#7, 0#7, 0#7, 0#7, 0#7⟩
  keep := 0#3
  len := 0#32
  padinfo := ⟨0#3, 0#3, false⟩
  groups := 0#32
  outlen := 0#32
  lutin := 0#8
  lutout := ⟨false, 0#8⟩

/-- The machine right after reset (R340): no access is pending, because the block fetches nothing (R20); a host
program is put into `pending` from outside (log 1). -/
def State.reset : State where
  regs := Regs.reset
  pc := 0
  pending := []
  responses := []

end Sys2Proof.Machine
end

