-- ==== Sys2Proof/Machine/Flags.lean ====
section
/-! DEFINITION. The STATUS register (spec/10_state.md R31 to R33) and the cause codes (spec/60_exceptions.md R307).
The block has no condition codes (R39): these bits are its only flags. -/

namespace Sys2Proof.Machine

/-- OVF is hardwired 0 (R31, R153). -/
def Status.ovf (_ : Status) : Bool := false

/-- ERR, computed at every read: INVCHAR or OVF or ILLCMD or RANGE; WIDE does not enter it (R32). -/
def Status.err (st : Status) : Bool := st.invchar || st.ovf || st.illcmd || st.range

/-- The 32 bits a read of STATUS returns (R62), from bit 31 down: ERR, 20 zeros, ERRIDX, 3 zeros, WIDE, RANGE,
ILLCMD, OVF, INVCHAR. -/
def Status.toWord (st : Status) : Word :=
  BitVec.ofBool st.err ++ 0#20 ++ st.erridx ++ 0#3 ++ BitVec.ofBool st.wide ++ BitVec.ofBool st.range ++
    BitVec.ofBool st.illcmd ++ BitVec.ofBool st.ovf ++ BitVec.ofBool st.invchar

/-- The value of one sticky flag. -/
def Status.flag (st : Status) : Flag → Bool
  | .invchar => st.invchar
  | .illcmd => st.illcmd
  | .range => st.range
  | .wide => st.wide

/-- `set_sticky(FLAG)` of R8: the flag becomes 1 and nothing else changes; a flag is never cleared (R31). -/
def Status.setSticky (st : Status) : Flag → Status
  | .invchar => { st with invchar := true }
  | .illcmd => { st with illcmd := true }
  | .range => { st with range := true }
  | .wide => { st with wide := true }

/-- A write of `v` to STATUS: each W1C bit in 0, 2, 3, 4 that is 1 in `v` is cleared; the other bits of `v` are
ignored (R31, R63). -/
def Status.writeOneToClear (st : Status) (v : Word) : Status :=
  { st with
    invchar := st.invchar && !v.getLsbD 0
    illcmd := st.illcmd && !v.getLsbD 2
    range := st.range && !v.getLsbD 3
    wide := st.wide && !v.getLsbD 4 }

/-- The code of a cause (R307). -/
def Cause.code : Cause → Nat
  | .none => 0
  | .invalidCharacter => 1
  | .overflow => 2
  | .illegalCommand => 3
  | .range => 4
  | .wide => 5
  | .busError => 6

/-- The STATUS bit of a cause, where it has one (R307). -/
def Cause.statusBit : Cause → Option Nat
  | .none => Option.none
  | .invalidCharacter => some 0
  | .overflow => some 1
  | .illegalCommand => some 2
  | .range => some 3
  | .wide => some 4
  | .busError => Option.none

/-- The sticky flag a cause sets, where it can set one (R307: `overflow` is never raised). -/
def Cause.flag : Cause → Option Flag
  | .none => Option.none
  | .invalidCharacter => some .invchar
  | .overflow => Option.none
  | .illegalCommand => some .illcmd
  | .range => some .range
  | .wide => some .wide
  | .busError => Option.none

/-- Whether ERR includes the cause's flag (R307). -/
def Cause.inErr : Cause → Bool
  | .none => false
  | .invalidCharacter => true
  | .overflow => true
  | .illegalCommand => true
  | .range => true
  | .wide => false
  | .busError => false

end Sys2Proof.Machine
end

