-- ==== Sys2Proof/Machine/Ops.lean ====
section
/-! DEFINITION. The named operations over the registers: lanes (spec/10_state.md R38), the register map and its
reads and writes (R21; spec/20_memory.md R62, R63), recording an error (spec/60_exceptions.md R300), and the end of
a bus access. The block traps nothing: recording an error in STATUS is the whole of what an error does (R300, R310),
and there is no return from it. -/

namespace Sys2Proof

/-- The value of lane `i`. -/
def Lanes.get {α : Type} (x : Lanes α) (i : Fin 5) : α :=
  match i with
  | 0 => x.l0
  | 1 => x.l1
  | 2 => x.l2
  | 3 => x.l3
  | 4 => x.l4

/-- The lanes whose lane `i` is `f i`. -/
def Lanes.ofFn {α : Type} (f : Fin 5 → α) : Lanes α := ⟨f 0, f 1, f 2, f 3, f 4⟩

/-- `f` applied to each lane. -/
def Lanes.map {α β : Type} (f : α → β) (x : Lanes α) : Lanes β := ⟨f x.l0, f x.l1, f x.l2, f x.l3, f x.l4⟩

/-- The lanes in stream order. -/
def Lanes.toList {α : Type} (x : Lanes α) : List α := [x.l0, x.l1, x.l2, x.l3, x.l4]

/-- Byte lane `j` of a word, `v[31-8j : 24-8j]`: lane 0 is bits 31..24 (R5). -/
def byteLane (v : Word) (j : Fin 4) : Byte := v.extractLsb' (24 - 8 * j.val) 8

/-- Four bytes in stream order as one word, big-endian (R23, R68). -/
def packWord (b0 b1 b2 b3 : Byte) : Word := b0 ++ b1 ++ b2 ++ b3

namespace Machine

/-- The constant ID, the characters "LX85" (R1, R22). -/
def idValue : Word := 0x4C583835#32

/-- The characters CH[0..4]: CHA holds lanes 0 to 3, CHB lane 4 (R24, R25, R38). -/
def Regs.chars (r : Regs) : Lanes Byte :=
  ⟨byteLane r.cha 0, byteLane r.cha 1, byteLane r.cha 2, byteLane r.cha 3, r.chb⟩

/-- `CH[i] <- c[i]` for every lane (R38). -/
def Regs.setChars (r : Regs) (c : Lanes Byte) : Regs :=
  { r with cha := packWord c.l0 c.l1 c.l2 c.l3, chb := c.l4 }

/-- The bytes B[0..3] of WORD in stream order (R38). -/
def Regs.wordBytes (r : Regs) : List Byte :=
  [byteLane r.word 0, byteLane r.word 1, byteLane r.word 2, byteLane r.word 3]

/-- The 32 bits of DIGA: each digit of lanes 0 to 3 under a zero bit (R26, R62). -/
def Regs.digaWord (r : Regs) : Word :=
  0#1 ++ r.digits.l0 ++ 0#1 ++ r.digits.l1 ++ 0#1 ++ r.digits.l2 ++ 0#1 ++ r.digits.l3

/-- The 32 bits of PADINFO: OUTHI in bit 8, LASTN in bits 6..4, PAD in bits 2..0 (R29, R62). -/
def PadInfo.toWord (p : PadInfo) : Word :=
  0#23 ++ BitVec.ofBool p.outhi ++ 0#1 ++ p.lastn ++ 0#1 ++ p.pad

/-- The 32 bits of LUTOUT: VALID in bit 8, DATA in bits 7..0 (R35, R62). -/
def LutOut.toWord (l : LutOut) : Word := 0#23 ++ BitVec.ofBool l.valid ++ l.data

/-- The fifteen registers in the order of their offsets (R21). -/
def Reg.all : List Reg :=
  [.id, .cmd, .status, .word, .cha, .chb, .diga, .digb] ++
  [.keep, .len, .padinfo, .groups, .outlen, .lutin, .lutout]

/-- The byte offset of a register (R21). -/
def Reg.offset : Reg → Offset
  | .id => 0x00#6
  | .cmd => 0x04#6
  | .status => 0x08#6
  | .word => 0x0C#6
  | .cha => 0x10#6
  | .chb => 0x14#6
  | .diga => 0x18#6
  | .digb => 0x1C#6
  | .keep => 0x20#6
  | .len => 0x24#6
  | .padinfo => 0x28#6
  | .groups => 0x2C#6
  | .outlen => 0x30#6
  | .lutin => 0x34#6
  | .lutout => 0x38#6

/-- The register at an offset. A misaligned offset and the unmapped 0x3C hold none (R61, R65). -/
def Reg.ofOffset (addr : Offset) : Option Reg := Reg.all.find? (fun r => r.offset == addr)

/-- The register a bus access reaches: only a 4-byte access at a register's offset reaches one (R61, R65). -/
def busTarget (addr : Offset) (size : Nat) : Option Reg := if size = 4 then Reg.ofOffset addr else none

/-- The value a read of a register returns (R62). -/
def Regs.readReg (r : Regs) : Reg → Word
  | .id => idValue
  | .cmd => 0#32
  | .status => r.status.toWord
  | .word => r.word
  | .cha => r.cha
  | .chb => r.chb.setWidth 32
  | .diga => r.digaWord
  | .digb => r.digits.l4.setWidth 32
  | .keep => r.keep.setWidth 32
  | .len => r.len
  | .padinfo => r.padinfo.toWord
  | .groups => r.groups
  | .outlen => r.outlen
  | .lutin => r.lutin.setWidth 32
  | .lutout => r.lutout.toWord

/-- A write to a register other than CMD (R63): the operand registers take the value, less its reserved bits;
STATUS clears its W1C bits; a read-only register ignores it (R66). A write to CMD runs a command, which is the
bus step's part; CMD itself keeps nothing (R36). -/
def Regs.writeReg (r : Regs) (v : Word) : Reg → Regs
  | .status => { r with status := r.status.writeOneToClear v }
  | .word => { r with word := v }
  | .cha => { r with cha := v }
  | .chb => { r with chb := v.setWidth 8 }
  | .len => { r with len := v }
  | .lutin => { r with lutin := v.setWidth 8 }
  | .id => r
  | .cmd => r
  | .diga => r
  | .digb => r
  | .keep => r
  | .padinfo => r
  | .groups => r
  | .outlen => r
  | .lutout => r

/-- The state with its registers changed, the run of the host program left as it is. -/
def State.withRegs (s : State) (r : Regs) : State := { s with regs := r }

/-- Recording an error or the notice WIDE: its sticky flag is set, nothing is saved, no control moves (R300). -/
def State.raise (s : State) (f : Flag) : State :=
  s.withRegs { s.regs with status := s.regs.status.setSticky f }

/-- The end of a bus access: the port has answered it and the host goes on to the next one (R20, R71). -/
def State.complete (s : State) (rest : List BusEvent) (answer : Response) : State :=
  { s with pc := s.pc + 1, pending := rest, responses := s.responses ++ [answer] }

end Machine

end Sys2Proof
end

