-- ==== Sys2Proof/Machine/Control.lean ====
section
/-! DEFINITION. The control commands NOP and SRST (spec/44_control.md). -/

namespace Sys2Proof.Machine

/-- `NOP`: no effect (R240). -/
def execNop (s : State) : Host.Outcome State Fault Refusal := .next s

/-- `SRST`: every register takes its reset value (R241), the state of R340. -/
def execSrst (s : State) : Host.Outcome State Fault Refusal := .next (s.withRegs Regs.reset)

end Sys2Proof.Machine
end

