-- ==== Sys2Proof/Machine/Alphabet.lean ====
section
/-! DEFINITION. The constant state of the block (spec/10_state.md R37): the alphabet ROM and the inverse ROM of
spec/40_alphabet.md. Constants: nothing in State holds them, and no construction step exists (R128). -/

namespace Sys2Proof.Machine

/-- The alphabet ROM: the hex dump of R121, a line a row, ALPHA[0] first. -/
def alphabet : List Byte :=
  [0x23, 0x24, 0x25, 0x26, 0x28, 0x29, 0x2A, 0x2B, 0x2D, 0x30, 0x31, 0x32, 0x33, 0x34, 0x35, 0x36, 0x37] ++
  [0x38, 0x39, 0x3A, 0x3B, 0x3C, 0x3D, 0x3E, 0x3F, 0x40, 0x41, 0x42, 0x43, 0x44, 0x45, 0x46, 0x47, 0x48] ++
  [0x49, 0x4A, 0x4B, 0x4C, 0x4D, 0x4E, 0x4F, 0x50, 0x51, 0x52, 0x53, 0x54, 0x55, 0x56, 0x57, 0x58, 0x59] ++
  [0x5A, 0x5B, 0x5D, 0x5E, 0x5F, 0x61, 0x62, 0x63, 0x64, 0x65, 0x66, 0x67, 0x68, 0x69, 0x6A, 0x6B, 0x6C] ++
  [0x6D, 0x6E, 0x6F, 0x70, 0x71, 0x72, 0x73, 0x74, 0x75, 0x76, 0x77, 0x78, 0x79, 0x7A, 0x7B, 0x7C, 0x7D]

/-- `ALPHA[v]`. Every use reads an entry 0 to 84, which the table has; the default is never read. -/
def alpha (v : Nat) : Byte := alphabet.getD v 0#8

/-- An entry of the inverse ROM: a valid bit and a 7-bit value (R37, R122). -/
structure InvEntry where
  valid : Bool
  value : Digit
  deriving DecidableEq, Repr

/-- The entry for `c` when the characters `as` hold the values from `v` up: its position, or (0, 0) (R122). -/
def inverseFrom (as : List Byte) (v : Nat) (c : Byte) : InvEntry :=
  match as with
  | [] => ⟨false, 0#7⟩
  | a :: rest => if a = c then ⟨true, BitVec.ofNat 7 v⟩ else inverseFrom rest (v + 1) c

/-- `INV[c]` (R122). -/
def inverse (c : Byte) : InvEntry := inverseFrom alphabet 0 c

/-- The character is in the alphabet: `INV[c].valid = 1` (R122). -/
def inAlphabet (c : Byte) : Bool := (inverse c).valid

end Sys2Proof.Machine
end

