-- ==== Sys2Proof/Machine/Operands.lean ====
section
/-! DEFINITION. The operand forms of the commands (spec/30_encoding.md R91): the zero-filled group word of ENC, the
padded characters of DEC, the length of PADE and PADD, the byte of ALOOK and ILOOK. -/

namespace Sys2Proof.Machine

/-- `mask = (0xFFFFFFFF << (8 * (4 - nb))) mod 2^32` (R150): ones in the lanes below `nb`. -/
def zeroFillMask (nb : Nat) : Word := 0xFFFFFFFF#32 <<< (8 * (4 - nb))

/-- The group word of `ENC nb`: the lanes from `nb` up are zero whatever WORD holds there (R151). -/
def Regs.encGroup (r : Regs) (nb : Nat) : Word := r.word &&& zeroFillMask nb

/-- The padding character of the decoder, the alphabet's last, 0x7D (R187). -/
def padChar : Byte := 0x7D#8

/-- The characters `c[0..4]` of `DEC nc`: the real lanes as they are, the others the padding character (R180). -/
def padChars (nc : Nat) (c : Lanes Byte) : Lanes Byte :=
  Lanes.ofFn (fun i => if i.val < nc then c.get i else padChar)

/-- The length operand, read as an unsigned number (R28, R214). -/
def Regs.length (r : Regs) : Nat := r.len.toNat

/-- The lookup operand, read as an unsigned number (R34). -/
def Regs.lookupValue (r : Regs) : Nat := r.lutin.toNat

end Sys2Proof.Machine
end

