-- ==== Sys2Proof/Machine/Decoder.lean ====
section
/-! DEFINITION. The group decoder, DEC (spec/42_decoder.md). -/

namespace Sys2Proof.Machine

/-- `min(bad)` of R180: the lowest real lane whose character is outside the alphabet, if any (R181). -/
def firstInvalid (nc : Nat) (c : Lanes Byte) : Option (Fin 5) :=
  [0, 1, 2, 3, 4].find? (fun i => decide (i.val < nc) && !inAlphabet (c.get i))

/-- The 33-bit group value, exact: `d[0]*85^4 + d[1]*85^3 + d[2]*85^2 + d[3]*85 + d[4]` (R182). The constant factor
stands first, so that the kernel never counts down from it. -/
def accumulate (d : Lanes Digit) : Nat :=
  85 ^ 4 * d.l0.toNat + 85 ^ 3 * d.l1.toNat + 85 ^ 2 * d.l2.toNat + 85 * d.l3.toNat + d.l4.toNat

/-- The digits of five characters (R180). -/
def lookupDigits (c : Lanes Byte) : Lanes Digit := c.map (fun x => (inverse x).value)

/-- The registers after a `DEC` that found an invalid character in lane `i`: INVCHAR, ERRIDX and KEEP = 0, and
nothing else (R184). -/
def Regs.afterDecInvalid (r : Regs) (i : Fin 5) : Regs :=
  { r with status := { r.status.setSticky .invchar with erridx := BitVec.ofNat 3 i.val }, keep := 0#3 }

/-- The value `n` of `DEC nc` (R180, R182). -/
def Regs.decValue (r : Regs) (nc : Nat) : Nat := accumulate (lookupDigits (padChars nc r.chars))

/-- The notice WIDE for a group value: the sticky flag is set when it is 2^32 or more (R186). -/
def Status.noteWide (st : Status) (n : Nat) : Status := if 2 ^ 32 ≤ n then st.setSticky .wide else st

/-- The registers after a `DEC nc` whose real lanes are valid (R180): the padded characters and their digits, the
value mod 2^32 (R183), `KEEP = nc - 1` (R185), and WIDE when the value is 2^32 or more (R186). -/
def Regs.afterDec (r : Regs) (nc : Nat) : Regs :=
  { r.setChars (padChars nc r.chars) with
    status := r.status.noteWide (r.decValue nc)
    word := BitVec.ofNat 32 (r.decValue nc)
    digits := lookupDigits (padChars nc r.chars)
    keep := BitVec.ofNat 3 (nc - 1) }

/-- `DEC nc`: validation comes first (R308, C4). A count outside 1 to 5 has an illegal word, whose whole effect is
ILLCMD (R93; log 6). -/
def execDec (nc : BitVec 3) (s : State) : Host.Outcome State Fault Refusal :=
  if 1 ≤ nc.toNat ∧ nc.toNat ≤ 5 then
    match firstInvalid nc.toNat s.regs.chars with
    | some i => .next (s.withRegs (s.regs.afterDecInvalid i))
    | none => .next (s.withRegs (s.regs.afterDec nc.toNat))
  else .next (s.raise .illcmd)

end Sys2Proof.Machine
end

