-- ==== Sys2Proof/Machine/Encoder.lean ====
section
/-! DEFINITION. The group encoder, ENC (spec/41_encoder.md). -/

namespace Sys2Proof.Machine

/-- Digit `i` of `n`, the most significant first: `(n / 85^(4 - i)) mod 85` (R154). -/
def digitOf (n : Nat) (i : Fin 5) : Nat := n / 85 ^ (4 - i.val) % 85

/-- The five digits of a group word (R154). -/
def extractDigits (n : Nat) : Lanes Digit := Lanes.ofFn (fun i => BitVec.ofNat 7 (digitOf n i))

/-- The divider schedule R157 gives as valid: `D[i] = q mod 85; q = q / 85` for `i` from 4 down to 0. -/
def dividerDigits (n : Nat) : Lanes Digit :=
  let q3 := n / 85
  let q2 := q3 / 85
  let q1 := q2 / 85
  let q0 := q1 / 85
  ⟨BitVec.ofNat 7 (q0 % 85), BitVec.ofNat 7 (q1 % 85), BitVec.ofNat 7 (q2 % 85), BitVec.ofNat 7 (q3 % 85),
    BitVec.ofNat 7 (n % 85)⟩

/-- The digits each choice of EXTRACTOR computes (R157): a table holds the digits of R154. `ENC` uses R154's own
formula, since every choice must give its digits (log 9). -/
def extractorDigits : Extractor → Nat → Lanes Digit
  | .divider, n => dividerDigits n
  | .lut, n => extractDigits n

/-- The registers after a legal `ENC nb` (R150): the digits of the zero-filled word, their characters, the word
itself written back (R152), and `KEEP = nb + 1` (R155). STATUS is not touched: the overflow check cannot fail
(R153). -/
def Regs.afterEnc (r : Regs) (nb : Nat) : Regs :=
  { r.setChars ((extractDigits (r.encGroup nb).toNat).map (fun d => alpha d.toNat)) with
    word := r.encGroup nb
    digits := extractDigits (r.encGroup nb).toNat
    keep := BitVec.ofNat 3 (nb + 1) }

/-- `ENC nb`. A count outside 1 to 4 has an illegal word, whose whole effect is ILLCMD (R93; log 6). -/
def execEnc (nb : BitVec 3) (s : State) : Host.Outcome State Fault Refusal :=
  if 1 ≤ nb.toNat ∧ nb.toNat ≤ 4 then .next (s.withRegs (s.regs.afterEnc nb.toNat))
  else .next (s.raise .illcmd)

end Sys2Proof.Machine
end

