-- ==== Sys2Proof/Machine/Lookup.lean ====
section
/-! DEFINITION. The lookup commands ALOOK and ILOOK (spec/40_alphabet.md R123 to R126). -/

namespace Sys2Proof.Machine

/-- `ALOOK`: the character of a digit value 0 to 84; a larger value gives LUTOUT = 0 and sets RANGE (R123, R125). -/
def execAlook (s : State) : Host.Outcome State Fault Refusal :=
  if s.regs.lookupValue ≤ 84 then
    .next (s.withRegs { s.regs with lutout := ⟨true, alpha s.regs.lookupValue⟩ })
  else
    .next ((s.withRegs { s.regs with lutout := ⟨false, 0#8⟩ }).raise .range)

/-- `ILOOK`: the value of a character of the alphabet; any other gives LUTOUT = 0 and sets INVCHAR, ERRIDX kept
(R124, R126, R33). -/
def execIlook (s : State) : Host.Outcome State Fault Refusal :=
  if inAlphabet s.regs.lutin then
    .next (s.withRegs { s.regs with lutout := ⟨true, (inverse s.regs.lutin).value.setWidth 8⟩ })
  else
    .next ((s.withRegs { s.regs with lutout := ⟨false, 0#8⟩ }).raise .invchar)

end Sys2Proof.Machine
end

