-- ==== Sys2Proof/Machine/Padding.lean ====
section
/-! DEFINITION. The padding calculator, PADE and PADD (spec/43_padding.md), exact on naturals (R6, R214). -/

namespace Sys2Proof.Machine

/-- The encoder's pad, `(4 - (L mod 4)) mod 4` (R210). -/
def encPad (l : Nat) : Nat := (4 - l % 4) % 4

/-- The encoder's group count, `ceil(L/4)` (R210). -/
def encGroups (l : Nat) : Nat := l / 4 + (if l % 4 ≠ 0 then 1 else 0)

/-- The encoded length, 33 bits (R210). -/
def encOut (l : Nat) : Nat := 5 * encGroups l - encPad l

/-- The decoder's pad, `(5 - (M mod 5)) mod 5`, of the unsigned length (R212, R214). -/
def decPad (m : Nat) : Nat := (5 - m % 5) % 5

/-- The decoder's group count, `ceil(M/5)` (R212). -/
def decGroups (m : Nat) : Nat := m / 5 + (if m % 5 ≠ 0 then 1 else 0)

/-- The decoded length (R212). -/
def decOut (m : Nat) : Nat := 4 * decGroups m - decPad m

/-- The registers the calculator writes: PADINFO, GROUPS, and the output length with its bit 32 in OUTHI
(R210, R212). -/
def Regs.setPadResult (r : Regs) (pad lastn groups out : Nat) : Regs :=
  { r with
    padinfo := ⟨BitVec.ofNat 3 pad, BitVec.ofNat 3 lastn, out.testBit 32⟩
    groups := BitVec.ofNat 32 groups
    outlen := BitVec.ofNat 32 out }

/-- `PADE` (R210, R211). -/
def execPade (s : State) : Host.Outcome State Fault Refusal :=
  let l := s.regs.length
  .next (s.withRegs (s.regs.setPadResult (encPad l) (if l = 0 then 0 else 4 - encPad l) (encGroups l) (encOut l)))

/-- `PADD` (R212, R213). Its length is below 2^32, so OUTHI is 0. -/
def execPadd (s : State) : Host.Outcome State Fault Refusal :=
  let m := s.regs.length
  .next (s.withRegs (s.regs.setPadResult (decPad m) (if m = 0 then 0 else 5 - decPad m) (decGroups m) (decOut m)))

end Sys2Proof.Machine
end

