-- ==== Sys2Proof/Machine/Dispatch.lean ====
section
/-! DEFINITION. One arm per command (spec/30_encoding.md R92, the case over the opcode). -/

namespace Sys2Proof.Machine

def exec (i : Instr) (s : State) : Host.Outcome State Fault Refusal :=
  match i with
  | .nop => Sys2Proof.Machine.execNop s
  | .enc nb => Sys2Proof.Machine.execEnc nb s
  | .dec nc => Sys2Proof.Machine.execDec nc s
  | .pade => Sys2Proof.Machine.execPade s
  | .padd => Sys2Proof.Machine.execPadd s
  | .alook => Sys2Proof.Machine.execAlook s
  | .ilook => Sys2Proof.Machine.execIlook s
  | .srst => Sys2Proof.Machine.execSrst s

end Sys2Proof.Machine
end

