-- ==== Sys2Proof/Machine/Bus.lean ====
section
/-! DEFINITION. The bus (spec/20_memory.md): reads and writes of the register space, the command a write to CMD
issues (spec/30_encoding.md R92), the hardware reset (spec/70_reset_and_hazards.md R341), and one access of the
host's program. -/

namespace Sys2Proof.Machine

/-- BASE_ADDR as an argument (R60, I9): the offset of a platform address that lies in the 64-byte register
space. No other definition depends on it. -/
def offsetAt (baseAddr address : Nat) : Option Offset :=
  if baseAddr ≤ address ∧ address < baseAddr + 64 then some (BitVec.ofNat 6 (address - baseAddr)) else none

/-- `MemRead(addr, n)`: the value, or the bus error; no state changes (R62). -/
def memRead (addr : Offset) (size : Nat) (s : State) : Except Fault Word :=
  match busTarget addr size with
  | some r => .ok (s.regs.readReg r)
  | none => .error (.busError addr size)

/-- `Execute(w)`: a legal word runs its command, any other sets ILLCMD and does nothing else (R92, R93). -/
def execute (w : Word) (s : State) : Host.Outcome State Fault Refusal :=
  match decode w with
  | .ok i => exec i s
  | .error _ => .next (s.raise .illcmd)

/-- `MemWrite(addr, n, v)`: the bus error, the command, or the register write (R63). -/
def memWrite (addr : Offset) (size : Nat) (v : Word) (s : State) : Host.Outcome State Fault Refusal :=
  match busTarget addr size with
  | some r => if r = .cmd then execute v s else .next (s.withRegs (s.regs.writeReg v r))
  | none => .fault (.busError addr size)

/-- One event at the port, with `rest` still to come. An access is performed whole, a command with every effect,
before the next one (R71, R345). The hardware reset gives every register its reset value; it is no access, so it
has no answer and `pc` stays (R341; log 4). -/
def perform (e : BusEvent) (rest : List BusEvent) (s : State) : Host.Outcome State Fault Refusal :=
  match e with
  | .read addr size =>
    match memRead addr size s with
    | .ok v => .next (s.complete rest (.readData v))
    | .error f => .fault f
  | .write addr size v => memWrite addr size v (s.complete rest .writeDone)
  | .hardReset => .next { s with regs := Regs.reset, pending := rest }

/-- The next event of the run. After the last one the block holds its registers and does nothing (R347; log 2). -/
def busStep (s : State) : Host.Outcome State Fault Refusal :=
  match s.pending with
  | [] => .next s
  | e :: rest => perform e rest s

/-- The state in which the host goes on after its next access got the error response: no register changed (R64). -/
def State.answerBusError (s : State) : State :=
  match s.pending with
  | .read _ _ :: rest => s.complete rest .readError
  | .write _ _ _ :: rest => s.complete rest .writeError
  | _ => s

/-- The step as the host sees it: a faulting access is answered by an error response and the host's next access
is accepted as usual (R64, R300; log 3). -/
def hostStep (s : State) : Host.Outcome State Fault Refusal :=
  match busStep s with
  | .next t => .next t
  | .fault _ => .next s.answerBusError
  | .refused r => .refused r

/-- `k` steps as the host sees them. -/
def hostRun : Nat → State → Host.Outcome State Fault Refusal
  | 0, s => .next s
  | k + 1, s =>
    match hostStep s with
    | .next t => hostRun k t
    | .fault f => .fault f
    | .refused r => .refused r

/-- The data an answer carries to the host: a faulting read returns 0 (R64); a write carries none. -/
def Response.data : Response → Option Word
  | .readData v => some v
  | .readError => some 0#32
  | .writeDone => none
  | .writeError => none

/-- A host program put before the port from outside (R20, R96; log 1). -/
def State.load (s : State) (program : List BusEvent) : State := { s with pending := program }

/-- The write to CMD that issues the command word `w`: one 4-byte access (R90). -/
def commandWrite (w : Word) : BusEvent := .write (Reg.offset .cmd) 4 w

end Sys2Proof.Machine
end

