-- ==== Sys2Proof/Machine/Step.lean ====
section
/-! DEFINITION. The step of the machine, and the state whose next step runs a given command word. -/

namespace Sys2Proof.Machine

/-- One step: the next event at the port (R20, R71, R345). -/
def step (s : State) : Host.Outcome State Fault Refusal := busStep s

/-- The state whose next access is the write of `w` to CMD, in place of the access that was next (log 11): the
block fetches nothing, so a command runs when the host writes it (R74). -/
def State.withFetchWord (s : State) (nbits w : Nat) : State :=
  s.load (commandWrite (BitVec.ofNat 32 (w % 2 ^ nbits)) :: s.pending.tail)

end Sys2Proof.Machine
end

