-- ==== Sys2Proof/Machine/Assembler.lean ====
section
/-! DEFINITION. The assembler of spec/30_encoding.md R96 and R97: a program is a list of lines, each a bus access, a
pseudo-instruction for one, or a comment. Lines are lists of characters (log 12). -/

namespace Sys2Proof.Machine

/-- A line of a program (R96, R97). -/
inductive AsmLine where
  | wr (r : Reg) (value : Word)
  | rd (r : Reg)
  | command (i : Instr)
  | clrstat
  | comment
  deriving DecidableEq, Repr

/-- The accesses a line stands for: an access is its direction, its offset and its data (R96); a command is one
write to CMD, CLRSTAT one write to STATUS (R97). A count out of range is not valid syntax and is refused (R97);
a raw write to CMD may carry any word. -/
def AsmLine.assemble : AsmLine → Option (List BusEvent)
  | .wr r v => some [.write r.offset 4 v]
  | .rd r => some [.read r.offset 4]
  | .command i => if i.wellFormed then some [commandWrite (encode i)] else none
  | .clrstat => some [.write (Reg.offset .status) 4 0x0000001D#32]
  | .comment => some []

/-- The accesses of a program, in the order of its lines; none where a line is refused. -/
def assemble : List AsmLine → Option (List BusEvent)
  | [] => some []
  | line :: rest => do
    let e ← line.assemble
    let es ← assemble rest
    some (e ++ es)

/-- The register a name of R21 stands for. -/
def Reg.ofName (name : List Char) : Option Reg :=
  if name = ['I', 'D'] then some .id
  else if name = ['C', 'M', 'D'] then some .cmd
  else if name = ['S', 'T', 'A', 'T', 'U', 'S'] then some .status
  else if name = ['W', 'O', 'R', 'D'] then some .word
  else if name = ['C', 'H', 'A'] then some .cha
  else if name = ['C', 'H', 'B'] then some .chb
  else if name = ['D', 'I', 'G', 'A'] then some .diga
  else if name = ['D', 'I', 'G', 'B'] then some .digb
  else if name = ['K', 'E', 'E', 'P'] then some .keep
  else if name = ['L', 'E', 'N'] then some .len
  else if name = ['P', 'A', 'D', 'I', 'N', 'F', 'O'] then some .padinfo
  else if name = ['G', 'R', 'O', 'U', 'P', 'S'] then some .groups
  else if name = ['O', 'U', 'T', 'L', 'E', 'N'] then some .outlen
  else if name = ['L', 'U', 'T', 'I', 'N'] then some .lutin
  else if name = ['L', 'U', 'T', 'O', 'U', 'T'] then some .lutout
  else none

/-- The value of a digit character in a base up to 16. -/
def digitValue (base : Nat) (c : Char) : Option Nat :=
  let v := if '0' ≤ c ∧ c ≤ '9' then c.toNat - 48
    else if 'A' ≤ c ∧ c ≤ 'F' then c.toNat - 55
    else if 'a' ≤ c ∧ c ≤ 'f' then c.toNat - 87
    else base
  if v < base then some v else none

/-- The number a list of digits spells, after a prefix of value `acc`. -/
def digitsValue (base : Nat) : List Char → Nat → Option Nat
  | [], acc => some acc
  | c :: rest, acc => do
    let v ← digitValue base c
    digitsValue base rest (acc * base + v)

/-- A number: hex after `0x`, else decimal (R96). -/
def parseNumber : List Char → Option Nat
  | [] => none
  | ['0', 'x'] => none
  | '0' :: 'x' :: rest => digitsValue 16 rest 0
  | cs => digitsValue 10 cs 0

/-- The value of a `WR` line: a 32-bit number (R96). -/
def parseValue (cs : List Char) : Option Word := do
  let v ← parseNumber cs
  if v < 2 ^ 32 then some (BitVec.ofNat 32 v) else none

/-- The count of `ENC` or `DEC`: a number that fits the field CNT; `assemble` refuses one out of range (R97). -/
def parseCount (cs : List Char) : Option (BitVec 3) := do
  let v ← parseNumber cs
  if v < 8 then some (BitVec.ofNat 3 v) else none

/-- A word under construction, added to the words before it unless it is empty. -/
def closeToken (cur : List Char) (done : List (List Char)) : List (List Char) :=
  if cur = [] then done else done ++ [cur]

/-- The words of a line and its commas, up to the comment sign `;`. DESIGN CHOICE: spaces and tabs part the
words. DEDUCED: a comment may also stand after an access, as in the listings of spec/95_test_vectors.md (log 12). -/
def tokens : List Char → List Char → List (List Char) → List (List Char)
  | [], cur, done => closeToken cur done
  | c :: rest, cur, done =>
    if c = ';' then closeToken cur done
    else if c = ',' then tokens rest [] (closeToken cur done ++ [[',']])
    else if c = ' ' ∨ c = '\t' then tokens rest [] (closeToken cur done)
    else tokens rest (cur ++ [c]) done

/-- The line a list of words spells (R96, R97). DESIGN CHOICE: a line without a word, be it empty, blank or of a comment
alone, is a comment and stands for no access; R96 names no empty line (log 12). -/
def parseTokens : List (List Char) → Option AsmLine
  | [] => some .comment
  | [['N', 'O', 'P']] => some (.command .nop)
  | [['P', 'A', 'D', 'E']] => some (.command .pade)
  | [['P', 'A', 'D', 'D']] => some (.command .padd)
  | [['A', 'L', 'O', 'O', 'K']] => some (.command .alook)
  | [['I', 'L', 'O', 'O', 'K']] => some (.command .ilook)
  | [['S', 'R', 'S', 'T']] => some (.command .srst)
  | [['C', 'L', 'R', 'S', 'T', 'A', 'T']] => some .clrstat
  | [['E', 'N', 'C'], n] => (parseCount n).map (fun c => .command (.enc c))
  | [['D', 'E', 'C'], n] => (parseCount n).map (fun c => .command (.dec c))
  | [['R', 'D'], r] => (Reg.ofName r).map .rd
  | [['W', 'R'], r, [','], v] => do
    let reg ← Reg.ofName r
    let value ← parseValue v
    some (.wr reg value)
  | _ => none

/-- The line a text spells. -/
def parseLine (text : List Char) : Option AsmLine := parseTokens (tokens text [] [])

end Sys2Proof.Machine
end

