-- ==== Sys2Proof/Machine/Buffer.lean ====
section
/-! DEFINITION. The host's whole-buffer procedures (spec/45_buffer_protocol.md R260, R262, R263) and the split of a
longer buffer (spec/91_not_in_source.md N14), written with the bus reads and writes of the block. The host decides
each access from what it has read, so a procedure is a function of the state and not a fixed list of accesses. See
logs 10, 17 and 18. -/

namespace Sys2Proof.Machine

/-- A 4-byte write to a register; none where the port answers no next state. -/
def hostWrite (r : Reg) (v : Word) (s : State) : Option State :=
  match memWrite r.offset 4 v s with
  | .next t => some t
  | .fault _ => none
  | .refused _ => none

/-- A 4-byte read of a register; none where the port answers an error. -/
def hostRead (r : Reg) (s : State) : Option Word := (memRead r.offset 4 s).toOption

/-- The outcome of a call: its output, or its failure with the STATUS word whose flags name the error (R263). -/
inductive CallResult where
  | returned (out : List Byte)
  | failed (status : Word)
  deriving DecidableEq, Repr

/-- `nb` or `nc` of group `g` of `G`: the full count, and `PADINFO.LASTN` for the last group (R260, R262). -/
def groupCount (full lastn : BitVec 3) (left : Nat) : BitVec 3 := if left = 0 then lastn else full

/-- The byte the host places at position `p`: past the end of the buffer any value, `junk p` (I16). -/
def hostByte (junk : Nat → Byte) (b : List Byte) (p : Nat) : Byte := b.getD p (junk p)

/-- The start of both procedures: LEN, the padding command `pad`, then the number of groups and `PADINFO.LASTN`
(R260, R262). -/
def hostLayout (pad : Word) (l : Nat) (s : State) : Option (Nat × BitVec 3 × State) := do
  let s1 ← hostWrite .len (BitVec.ofNat 32 l) s
  let s2 ← hostWrite .cmd pad s1
  let g ← hostRead .groups s2
  let p ← hostRead .padinfo s2
  some (g.toNat, p.extractLsb' 4 3, s2)

/-- One group of ENCODE_BUFFER (R260): WORD, `ENC nb`, and the first KEEP of the five characters. -/
def encodeGroup (junk : Nat → Byte) (b : List Byte) (nb : BitVec 3) (g : Nat) (s : State) :
    Option (List Byte × State) := do
  let w := packWord (hostByte junk b (4 * g)) (hostByte junk b (4 * g + 1)) (hostByte junk b (4 * g + 2))
    (hostByte junk b (4 * g + 3))
  let s1 ← hostWrite .word w s
  let s2 ← hostWrite .cmd ((nb.setWidth 32 <<< 4) ||| 0x1#32) s1
  let k ← hostRead .keep s2
  let a ← hostRead .cha s2
  let c ← hostRead .chb s2
  some ([byteLane a 0, byteLane a 1, byteLane a 2, byteLane a 3, c.setWidth 8].take k.toNat, s2)

/-- The groups of ENCODE_BUFFER from `g` on, `left` of them (R260). -/
def encodeGroups (junk : Nat → Byte) (b : List Byte) (lastn : BitVec 3) :
    (left g : Nat) → State → Option (List Byte × State)
  | 0, _, s => some ([], s)
  | left + 1, g, s => do
    let (t, s1) ← encodeGroup junk b (groupCount 4#3 lastn left) g s
    let (u, s2) ← encodeGroups junk b lastn left (g + 1) s1
    some (t ++ u, s2)

/-- One group of DECODE_BUFFER (R262): CHA, CHB, `DEC nc`, and the first KEEP of the four bytes. -/
def decodeGroup (junk : Nat → Byte) (t : List Byte) (nc : BitVec 3) (g : Nat) (s : State) :
    Option (List Byte × State) := do
  let a := packWord (hostByte junk t (5 * g)) (hostByte junk t (5 * g + 1)) (hostByte junk t (5 * g + 2))
    (hostByte junk t (5 * g + 3))
  let s1 ← hostWrite .cha a s
  let s2 ← hostWrite .chb ((hostByte junk t (5 * g + 4)).setWidth 32) s1
  let s3 ← hostWrite .cmd ((nc.setWidth 32 <<< 4) ||| 0x2#32) s2
  let k ← hostRead .keep s3
  let w ← hostRead .word s3
  some ([byteLane w 0, byteLane w 1, byteLane w 2, byteLane w 3].take k.toNat, s3)

/-- The groups of DECODE_BUFFER from `g` on, `left` of them (R262). -/
def decodeGroups (junk : Nat → Byte) (t : List Byte) (lastn : BitVec 3) :
    (left g : Nat) → State → Option (List Byte × State)
  | 0, _, s => some ([], s)
  | left + 1, g, s => do
    let (b, s1) ← decodeGroup junk t (groupCount 5#3 lastn left) g s
    let (u, s2) ← decodeGroups junk t lastn left (g + 1) s1
    some (b ++ u, s2)

/-- The check after the last group: STATUS bit 31 fails the call, and then no part of the output is returned
(R263). -/
def finishCall (out : List Byte) (s : State) : Option (CallResult × State) := do
  let st ← hostRead .status s
  some (if st.getLsbD 31 then .failed st else .returned out, s)

/-- `ENCODE_BUFFER(B)` for a buffer of fewer than 2^32 bytes (R260); none outside that domain. -/
def encodeBuffer (junk : Nat → Byte) (b : List Byte) (s : State) : Option (CallResult × State) :=
  if b.length < 2 ^ 32 then do
    let (g, lastn, s1) ← hostLayout 0x00000003#32 b.length s
    let (out, s2) ← encodeGroups junk b lastn g 0 s1
    finishCall out s2
  else none

/-- `DECODE_BUFFER(T)` for a string of fewer than 2^32 characters (R262); none outside that domain. -/
def decodeBuffer (junk : Nat → Byte) (t : List Byte) (s : State) : Option (CallResult × State) :=
  if t.length < 2 ^ 32 then do
    let (g, lastn, s1) ← hostLayout 0x00000004#32 t.length s
    let (out, s2) ← decodeGroups junk t lastn g 0 s1
    finishCall out s2
  else none

/-- A result with the output of earlier groups, or of earlier parts, in front: a failure returns none of it (R263). -/
def CallResult.after (out : List Byte) : CallResult → CallResult
  | .returned u => .returned (out ++ u)
  | .failed st => .failed st

/-- The groups of DECODE_BUFFER for a host that checks STATUS after each `DEC` and stops at the first error (R263).
The check that R262 makes after the last group stands, so that a string of no group is checked too (log 17). -/
def decodeGroupsChecked (junk : Nat → Byte) (t : List Byte) (lastn : BitVec 3) :
    (left g : Nat) → State → Option (CallResult × State)
  | 0, _, s => finishCall [] s
  | left + 1, g, s => do
    let (b, s1) ← decodeGroup junk t (groupCount 5#3 lastn left) g s
    let st ← hostRead .status s1
    if st.getLsbD 31 then some (.failed st, s1)
    else do
      let (r, s2) ← decodeGroupsChecked junk t lastn left (g + 1) s1
      some (r.after b, s2)

/-- `DECODE_BUFFER(T)` by a host that stops at the first error (R263). -/
def decodeBufferChecked (junk : Nat → Byte) (t : List Byte) (s : State) : Option (CallResult × State) :=
  if t.length < 2 ^ 32 then do
    let (g, lastn, s1) ← hostLayout 0x00000004#32 t.length s
    decodeGroupsChecked junk t lastn g 0 s1
  else none

/-! A host with a longer buffer splits it, at a multiple of 4 bytes to encode and of 5 characters to decode
(spec/91_not_in_source.md N14; log 18). -/

/-- A split the host may choose: every part fits one call, and every part but the last is a multiple of `k` long. -/
abbrev splitLegal (k : Nat) (parts : List (List Byte)) : Prop :=
  (∀ p ∈ parts, p.length < 2 ^ 32) ∧ ∀ p ∈ parts.dropLast, p.length % k = 0

/-- One call for each part in order, the outputs joined; the first failing call fails the whole (R263). -/
def callParts (call : Nat → List Byte → State → Option (CallResult × State)) :
    (parts : List (List Byte)) → (k : Nat) → State → Option (CallResult × State)
  | [], _, s => some (.returned [], s)
  | p :: rest, k, s => do
    let (r, s1) ← call k p s
    match r with
    | .failed st => some (.failed st, s1)
    | .returned out => do
      let (u, s2) ← callParts call rest (k + 1) s1
      some (u.after out, s2)

/-- ENCODE_BUFFER of each part; `junk k` are the bytes the host places past the end of part `k`. -/
def encodeParts (junk : Nat → Nat → Byte) (parts : List (List Byte)) (s : State) : Option (CallResult × State) :=
  callParts (fun k => encodeBuffer (junk k)) parts 0 s

/-- DECODE_BUFFER of each part. -/
def decodeParts (junk : Nat → Nat → Byte) (parts : List (List Byte)) (s : State) : Option (CallResult × State) :=
  callParts (fun k => decodeBuffer (junk k)) parts 0 s

/-- A list cut into parts of length `n`, the last one shorter or equal, with at most `fuel` cuts. -/
def cutEvery (n : Nat) : (fuel : Nat) → List Byte → List (List Byte)
  | 0, l => [l]
  | fuel + 1, l => if l.length ≤ n then [l] else l.take n :: cutEvery n fuel (l.drop n)

/-- `encode` of a buffer of any length: the longest parts below 2^32 that are a multiple of 4 (N14). -/
def encodeLong (junk : Nat → Nat → Byte) (b : List Byte) (s : State) : Option (CallResult × State) :=
  encodeParts junk (cutEvery 0xFFFFFFFC b.length b) s

/-- `decode` of a string of any length: the longest parts below 2^32 that are a multiple of 5 (N14). -/
def decodeLong (junk : Nat → Nat → Byte) (t : List Byte) (s : State) : Option (CallResult × State) :=
  decodeParts junk (cutEvery 0xFFFFFFFF t.length t) s

end Sys2Proof.Machine
end

