-- ==== Sys2Proof/Machine/Document.lean ====
section
/-! DEFINITION. The document's two functions, `encode(raw)` and `decode(text)`, as the rules quote them
(spec/45_buffer_protocol.md R261, R264; spec/43_padding.md R211, R213; spec/42_decoder.md R183): pure functions on
whole buffers, which the host procedures of `Machine/Buffer.lean` compute with the block. -/

namespace Sys2Proof.Machine

/-- `(-L) mod 4`, the residue of the negative integer (R6, R211). -/
def documentEncPad (l : Nat) : Nat := ((-(l : Int)) % 4).toNat

/-- `(-M) mod 5`, the residue of the negative integer (R6, R213). -/
def documentDecPad (m : Nat) : Nat := ((-(m : Int)) % 5).toNat

/-- The five characters of a group value: `alphabet[(n / 85^k) mod 85]` for `k` from 4 down to 0 (R154). -/
def documentChars (n : Nat) : List Byte := [4, 3, 2, 1, 0].map (fun k => alpha (n / 85 ^ k % 85))

/-- The characters of the consecutive 4-byte groups, each packed big-endian (R23). -/
def documentEncodeGroups : List Byte → List Byte
  | b0 :: b1 :: b2 :: b3 :: rest =>
    documentChars (2 ^ 24 * b0.toNat + 2 ^ 16 * b1.toNat + 2 ^ 8 * b2.toNat + b3.toNat) ++ documentEncodeGroups rest
  | _ => []

/-- The list without its last `k` elements. -/
def withoutLast {α : Type} (k : Nat) (l : List α) : List α := l.take (l.length - k)

/-- `encode(B)`: append `pad` zero bytes, encode the groups, remove the last `pad` characters (R261). -/
def documentEncode (b : List Byte) : List Byte :=
  withoutLast (documentEncPad b.length) (documentEncodeGroups (b ++ List.replicate (documentEncPad b.length) 0#8))

/-- `inverse(c)` of a character of the alphabet (R122). -/
def documentInverse (c : Byte) : Nat := (inverse c).value.toNat

/-- The four bytes of a group value: `(n >> (8*(3-j))) & 0xFF` for `j` from 0 to 3 (R183). -/
def documentBytes (n : Nat) : List Byte := [0, 1, 2, 3].map (fun j => BitVec.ofNat 8 ((n >>> (8 * (3 - j))) &&& 0xFF))

/-- The bytes of the consecutive 5-character groups, each the value `Σ inverse(c_k) * 85^(4-k)` (R182). -/
def documentDecodeGroups : List Byte → List Byte
  | c0 :: c1 :: c2 :: c3 :: c4 :: rest =>
    documentBytes (85 ^ 4 * documentInverse c0 + 85 ^ 3 * documentInverse c1 + 85 ^ 2 * documentInverse c2 +
      85 * documentInverse c3 + documentInverse c4) ++ documentDecodeGroups rest
  | _ => []

/-- `decode(T)`: append `pad` copies of the character of value 84, fail on a character outside the alphabet,
decode the groups, remove the last `pad` bytes (R264). -/
def documentDecode (t : List Byte) : Option (List Byte) :=
  let padded := t ++ List.replicate (documentDecPad t.length) (alpha 84)
  if padded.all inAlphabet then some (withoutLast (documentDecPad t.length) (documentDecodeGroups padded)) else none

end Sys2Proof.Machine
end

