-- ==== Sys2Proof/Safety.lean ====
section
/-! DEFINITION. What counts as a safe run, in the terms the claims use: the legal values of the registers, the cause
one access meets, and the reachable states. -/

namespace Sys2Proof.Machine

/-- Every digit lies in 0..84 (R26). -/
abbrev Regs.digitsLegal (r : Regs) : Prop :=
  r.digits.l0.toNat ≤ 84 ∧ r.digits.l1.toNat ≤ 84 ∧ r.digits.l2.toNat ≤ 84 ∧ r.digits.l3.toNat ≤ 84 ∧
    r.digits.l4.toNat ≤ 84

/-- The 33-bit output length, OUTHI above OUTLEN (R211). -/
def Regs.outlen33 (r : Regs) : Nat := 2 ^ 32 * r.padinfo.outhi.toNat + r.outlen.toNat

/-- PADINFO, GROUPS and OUTLEN hold together as `PADE` leaves them: pad, last count and length follow from the
number of groups and the pad (R29, R30, R211). Reset meets it with no group. -/
abbrev Regs.padLegalEnc (r : Regs) : Prop :=
  r.padinfo.pad.toNat ≤ 3 ∧ r.groups.toNat ≤ 0x40000000 ∧ r.padinfo.pad.toNat ≤ 4 * r.groups.toNat ∧
    r.padinfo.lastn.toNat = (if r.groups.toNat = 0 then 0 else 4 - r.padinfo.pad.toNat) ∧
    r.outlen33 = 5 * r.groups.toNat - r.padinfo.pad.toNat

/-- PADINFO, GROUPS and OUTLEN hold together as `PADD` leaves them (R29, R30, R213). -/
abbrev Regs.padLegalDec (r : Regs) : Prop :=
  r.padinfo.pad.toNat ≤ 4 ∧ r.groups.toNat ≤ 0x33333333 ∧ r.padinfo.pad.toNat ≤ 4 * r.groups.toNat ∧
    r.padinfo.lastn.toNat = (if r.groups.toNat = 0 then 0 else 5 - r.padinfo.pad.toNat) ∧
    r.outlen33 = 4 * r.groups.toNat - r.padinfo.pad.toNat

/-- LUTOUT is zero after a failed lookup, and after a good one holds a character of the alphabet or a digit value
(R35, R123, R124). -/
abbrev Regs.lutoutLegal (r : Regs) : Prop :=
  (r.lutout.valid = false → r.lutout.data = 0#8) ∧
    (r.lutout.valid = true → inAlphabet r.lutout.data = true ∨ r.lutout.data.toNat ≤ 84)

/-- The legal values of the registers the block writes (R26, R27, R29, R30, R33, R35). The operand registers take
every value (R23, R24, R28). -/
abbrev Regs.Legal (r : Regs) : Prop :=
  r.status.erridx.toNat ≤ 4 ∧ r.digitsLegal ∧ r.keep.toNat ≤ 5 ∧ (r.padLegalEnc ∨ r.padLegalDec) ∧ r.lutoutLegal

/-- What a command meets, in the priority of R308: an illegal count, then its own check, then the notice WIDE. -/
def commandCause (i : Instr) (r : Regs) : Cause :=
  match i with
  | .nop => .none
  | .enc nb => if (Instr.enc nb).wellFormed then .none else .illegalCommand
  | .dec nc =>
    if (Instr.dec nc).wellFormed then
      if (firstInvalid nc.toNat r.chars).isSome then .invalidCharacter
      else if 2 ^ 32 ≤ r.decValue nc.toNat then .wide
      else .none
    else .illegalCommand
  | .pade => .none
  | .padd => .none
  | .alook => if r.lutin.toNat ≤ 84 then .none else .range
  | .ilook => if inAlphabet r.lutin then .none else .invalidCharacter
  | .srst => .none

/-- What an event at the port meets (R308): the bus error first, then an illegal command word, then the command's
own cause. -/
def eventCause (e : BusEvent) (r : Regs) : Cause :=
  match e with
  | .read addr size => if (busTarget addr size).isSome then .none else .busError
  | .write addr size v =>
    match busTarget addr size with
    | some .cmd =>
      match decode v with
      | .ok i => commandCause i r
      | .error _ => .illegalCommand
    | some _ => .none
    | none => .busError
  | .hardReset => .none

/-- The flags of a state are clear, as the host owes before a call (R263). -/
abbrev Regs.flagsClear (r : Regs) : Prop := r.status.err = false

/-- The states a run can reach from `s`, the host going on after a bus error. -/
inductive Reaches : State → State → Prop where
  | refl (s : State) : Reaches s s
  | step {s t u : State} : hostStep s = .next t → Reaches t u → Reaches s u

end Sys2Proof.Machine
end

