-- ==== Sys2Proof/Certificates/Slice0/Obligations.lean ====
section
/-! DEFINITION. The statements for the provers, from the numbered rules of spec/. Each docstring names the rule. -/

open Sys2Proof Sys2Proof.Machine

namespace Sys2Proof.Claims

/-- The fifteen legal command words of R94 with the command each stands for. -/
def legalWords : List (Word × Instr) :=
  [(0x00000000, .nop), (0x00000011, .enc 1), (0x00000021, .enc 2), (0x00000031, .enc 3), (0x00000041, .enc 4)] ++
  [(0x00000012, .dec 1), (0x00000022, .dec 2), (0x00000032, .dec 3), (0x00000042, .dec 4), (0x00000052, .dec 5)] ++
  [(0x00000003, .pade), (0x00000004, .padd), (0x00000005, .alook), (0x00000006, .ilook), (0x00000007, .srst)]

/-- `Legal(w)` as R92 writes it, over the bits of the word. -/
def commandLegal (w : Word) : Prop :=
  w.toNat / 2 ^ 7 = 0 ∧
    (w.toNat % 16 = 1 ∧ 1 ≤ w.toNat / 16 % 8 ∧ w.toNat / 16 % 8 ≤ 4 ∨
      w.toNat % 16 = 2 ∧ 1 ≤ w.toNat / 16 % 8 ∧ w.toNat / 16 % 8 ≤ 5 ∨
      (w.toNat % 16 = 0 ∨ w.toNat % 16 = 3 ∨ w.toNat % 16 = 4 ∨ w.toNat % 16 = 5 ∨ w.toNat % 16 = 6 ∨
        w.toNat % 16 = 7) ∧ w.toNat / 16 % 8 = 0)

/-- An access the port answers with a bus error: the first line of MemRead and MemWrite (R62, R63). -/
def accessIllFormed (addr : Offset) (size : Nat) : Prop := size ≠ 4 ∨ addr.toNat % 4 ≠ 0 ∨ addr.toNat = 0x3C

/-- The register table of R62: the number a read at an offset returns, each field at its bit position. -/
def readTable (r : Regs) (addr : Nat) : Nat :=
  match addr with
  | 0x00 => 0x4C583835
  | 0x04 => 0
  | 0x08 =>
    2 ^ 31 * (r.status.invchar || r.status.illcmd || r.status.range).toNat + 2 ^ 8 * r.status.erridx.toNat +
      2 ^ 4 * r.status.wide.toNat + 2 ^ 3 * r.status.range.toNat + 2 ^ 2 * r.status.illcmd.toNat +
      r.status.invchar.toNat
  | 0x0C => r.word.toNat
  | 0x10 => r.cha.toNat
  | 0x14 => r.chb.toNat
  | 0x18 =>
    2 ^ 24 * (r.digits.get 0).toNat + 2 ^ 16 * (r.digits.get 1).toNat + 2 ^ 8 * (r.digits.get 2).toNat +
      (r.digits.get 3).toNat
  | 0x1C => (r.digits.get 4).toNat
  | 0x20 => r.keep.toNat
  | 0x24 => r.len.toNat
  | 0x28 => 2 ^ 8 * r.padinfo.outhi.toNat + 2 ^ 4 * r.padinfo.lastn.toNat + r.padinfo.pad.toNat
  | 0x2C => r.groups.toNat
  | 0x30 => r.outlen.toNat
  | 0x34 => r.lutin.toNat
  | 0x38 => 2 ^ 8 * r.lutout.valid.toNat + r.lutout.data.toNat
  | _ => 0

/-- The bits of a register that are not reserved (R22 to R35); CMD has none a read shows (R36). -/
def definedBits : Reg → Word
  | .id => 0xFFFFFFFF
  | .cmd => 0x00000000
  | .status => 0x8000071F
  | .word => 0xFFFFFFFF
  | .cha => 0xFFFFFFFF
  | .chb => 0x000000FF
  | .diga => 0x7F7F7F7F
  | .digb => 0x0000007F
  | .keep => 0x00000007
  | .len => 0xFFFFFFFF
  | .padinfo => 0x00000177
  | .groups => 0xFFFFFFFF
  | .outlen => 0xFFFFFFFF
  | .lutin => 0x000000FF
  | .lutout => 0x000001FF

/-- The operand registers, which the host reads and writes (R21: access RW). -/
def operandReg (r : Reg) : Prop := r = .word ∨ r = .cha ∨ r = .chb ∨ r = .len ∨ r = .lutin

/-- The read-only registers of R66. -/
def readOnlyReg (r : Reg) : Prop :=
  r = .id ∨ r = .diga ∨ r = .digb ∨ r = .keep ∨ r = .padinfo ∨ r = .groups ∨ r = .outlen ∨ r = .lutout

/-- The value five digits spell, `Σ d[i] * 85^(4-i)` (R154, R182). -/
def digitSum (d : Lanes Digit) : Nat := ∑ i : Fin 5, 85 ^ (4 - i.val) * (d.get i).toNat

/-- Lane `i` of the characters `DEC nc` decodes (R180): the real character, or the padding character. -/
def decodedChar (s : State) (nc : Nat) (i : Fin 5) : Byte := if i.val < nc then s.regs.chars.get i else 0x7D

/-- The value `DEC nc` computes (R182): the digits of the padded characters. -/
def decodedValue (s : State) (nc : Nat) : Nat :=
  ∑ i : Fin 5, 85 ^ (4 - i.val) * (inverse (decodedChar s nc i)).value.toNat

/-- Every real lane of `DEC nc` is in the alphabet (R181). -/
def realLanesValid (s : State) (nc : Nat) : Prop := ∀ i : Fin 5, i.val < nc → inAlphabet (s.regs.chars.get i) = true

/-- The model's invariant: the registers hold legal values, and every access so far has been answered (logs 1, 5). -/
abbrev Inv (s : State) : Prop := s.regs.Legal ∧ s.responses.length = s.pc

end Sys2Proof.Claims

open Sys2Proof.Claims

/-! ### The command encoding -/

/-- R94: the words of the opcode map decode to their commands. -/
def Obligations.SampleWordsDecode : Prop :=
  decode 0x00000000 = .ok .nop ∧ decode 0x00000041 = .ok (.enc 4) ∧ decode 0x00000052 = .ok (.dec 5) ∧
    decode 0x00000003 = .ok .pade ∧ decode 0x00000004 = .ok .padd ∧ decode 0x00000005 = .ok .alook ∧
    decode 0x00000006 = .ok .ilook ∧ decode 0x00000007 = .ok .srst

/-- R94: of all 32-bit words exactly the fifteen listed ones decode, each to its own command. -/
def Obligations.ExactlyFifteenWordsDecode : Prop :=
  (∀ (w : Word) (i : Instr), decode w = .ok i ↔ (w, i) ∈ legalWords) ∧ legalWords.length = 15 ∧
    (legalWords.map Prod.fst).Nodup

/-- Decoding and encoding agree: the encoder's word of a well-formed command decodes to it, a word that decodes is
the encoder's word of that well-formed command, and an ill-formed command has no word that decodes. -/
def Obligations.DecodeInvertsEncode : Prop :=
  (∀ i : Instr, i.WellFormed → decode (encode i) = .ok i) ∧
    (∀ (w : Word) (i : Instr), decode w = .ok i → i.WellFormed ∧ encode i = w) ∧
    (∀ i : Instr, ¬ i.WellFormed → ∃ e, decode (encode i) = .error e)

/-- R92, R93: a write of `w` to CMD runs `Execute(w)`: for a word that is not `Legal` it completes, sets ILLCMD and
changes nothing else; for a legal one it runs the command of its opcode with its count. -/
def Obligations.CommandWriteDispatches : Prop :=
  ∀ (w : Word) (s : State),
    (¬ commandLegal w →
      memWrite 0x04 4 w s =
        .next { s with regs := { s.regs with status := { s.regs.status with illcmd := true } } }) ∧
    (commandLegal w →
      (w.toNat % 16 = 0 → memWrite 0x04 4 w s = exec .nop s) ∧
      (w.toNat % 16 = 1 → memWrite 0x04 4 w s = exec (.enc (BitVec.ofNat 3 (w.toNat / 16 % 8))) s) ∧
      (w.toNat % 16 = 2 → memWrite 0x04 4 w s = exec (.dec (BitVec.ofNat 3 (w.toNat / 16 % 8))) s) ∧
      (w.toNat % 16 = 3 → memWrite 0x04 4 w s = exec .pade s) ∧
      (w.toNat % 16 = 4 → memWrite 0x04 4 w s = exec .padd s) ∧
      (w.toNat % 16 = 5 → memWrite 0x04 4 w s = exec .alook s) ∧
      (w.toNat % 16 = 6 → memWrite 0x04 4 w s = exec .ilook s) ∧
      (w.toNat % 16 = 7 → memWrite 0x04 4 w s = exec .srst s))

/-- R93 in a run: the access that writes an illegal command word completes normally, sets ILLCMD and does nothing
else. That `pc` moves and the answer is recorded is the model's account of the run (logs 1, 5). -/
def Obligations.IllegalWordSetsOnlyIllcmd : Prop :=
  ∀ (s : State) (w : Word) (rest : List BusEvent),
    s.pending = .write 0x04 4 w :: rest → ¬ commandLegal w →
      step s = .next
        { regs := { s.regs with status := { s.regs.status with illcmd := true } }
          pc := s.pc + 1
          pending := rest
          responses := s.responses ++ [.writeDone] }

/-! ### The bus -/

/-- A step runs the decoded command: where the next access writes a word to CMD that decodes to a command, the step
is `exec` of that command in the state whose access is done: `pc` one more, the access off the list, its answer
recorded. So it is for every well-formed write: the step is `memWrite` of it in that state (R63, R71; the run is the
model's account of the host's list, logs 1, 5). -/
def Obligations.StepRunsDecodedCommand : Prop :=
  (∀ (s : State) (w : Word) (i : Instr) (rest : List BusEvent),
    s.pending = .write 0x04 4 w :: rest → decode w = .ok i →
      step s = exec i
        { regs := s.regs, pc := s.pc + 1, pending := rest, responses := s.responses ++ [.writeDone] }) ∧
  (∀ (s : State) (addr : Offset) (v : Word) (rest : List BusEvent),
    s.pending = .write addr 4 v :: rest → ¬ accessIllFormed addr 4 →
      step s = memWrite addr 4 v
        { regs := s.regs, pc := s.pc + 1, pending := rest, responses := s.responses ++ [.writeDone] })

/-- R62: a read of an ill-formed access is a bus error; any other returns the register table's value. -/
def Obligations.ReadReturnsRegisterTable : Prop :=
  ∀ (s : State) (addr : Offset) (size : Nat),
    (accessIllFormed addr size → memRead addr size s = .error (.busError addr size)) ∧
    (¬ accessIllFormed addr size → ∃ v, memRead addr size s = .ok v ∧ v.toNat = readTable s.regs addr.toNat)

/-- R62 in a run: a read changes no register; its value is recorded, and the run goes on to the next access (the
record of answers is the model's, log 5). -/
def Obligations.ReadStepHasNoSideEffect : Prop :=
  ∀ (s : State) (addr : Offset) (rest : List BusEvent),
    s.pending = .read addr 4 :: rest → ¬ accessIllFormed addr 4 →
      step s = .next
        { regs := s.regs
          pc := s.pc + 1
          pending := rest
          responses := s.responses ++ [.readData (BitVec.ofNat 32 (readTable s.regs addr.toNat))] }

/-- R63: what a write does at each offset. CMD runs `Execute`; the W1C bits of STATUS, the operand registers and
the read-only registers behave as their lines say. -/
def Obligations.WriteFollowsRegisterTable : Prop :=
  ∀ (s : State) (addr : Offset) (size : Nat) (v : Word),
    (accessIllFormed addr size → memWrite addr size v s = .fault (.busError addr size)) ∧
    (¬ accessIllFormed addr size →
      (addr = 0x04 → memWrite addr size v s = execute v s) ∧
      (addr = 0x08 → memWrite addr size v s = .next (s.withRegs { s.regs with status :=
        { invchar := if v.getLsbD 0 then false else s.regs.status.invchar
          illcmd := if v.getLsbD 2 then false else s.regs.status.illcmd
          range := if v.getLsbD 3 then false else s.regs.status.range
          wide := if v.getLsbD 4 then false else s.regs.status.wide
          erridx := s.regs.status.erridx } })) ∧
      (addr = 0x0C → memWrite addr size v s = .next (s.withRegs { s.regs with word := v })) ∧
      (addr = 0x10 → memWrite addr size v s = .next (s.withRegs { s.regs with cha := v })) ∧
      (addr = 0x14 → memWrite addr size v s =
        .next (s.withRegs { s.regs with chb := BitVec.ofNat 8 (v.toNat % 256) })) ∧
      (addr = 0x24 → memWrite addr size v s = .next (s.withRegs { s.regs with len := v })) ∧
      (addr = 0x34 → memWrite addr size v s =
        .next (s.withRegs { s.regs with lutin := BitVec.ofNat 8 (v.toNat % 256) })) ∧
      (addr ∈ [0x00, 0x18, 0x1C, 0x20, 0x28, 0x2C, 0x30, 0x38] → memWrite addr size v s = .next s))

/-- R64, R306: a step faults exactly on an ill-formed next access, the fault names its offset and size, and no step
is ever refused. -/
def Obligations.StepFaultsExactlyOnBusError : Prop :=
  ∀ s : State,
    (∀ (addr : Offset) (size : Nat), step s = .fault (.busError addr size) ↔
      ∃ rest, accessIllFormed addr size ∧
        (s.pending = .read addr size :: rest ∨ ∃ v, s.pending = .write addr size v :: rest)) ∧
    (∀ r, step s ≠ .refused r)

/-- R64, log 3: an access that faults is answered by an error response, a read with the data value 0, and the host
goes on with its next access; no register has changed and no flag is set. Where the step does not fault, the host's
step is that step. -/
def Obligations.HostGoesOnAfterBusError : Prop :=
  (∀ (s : State) (addr : Offset) (size : Nat) (rest : List BusEvent), accessIllFormed addr size →
    (s.pending = .read addr size :: rest →
      hostStep s = .next
        { regs := s.regs, pc := s.pc + 1, pending := rest, responses := s.responses ++ [.readError] }) ∧
    (∀ v, s.pending = .write addr size v :: rest →
      hostStep s = .next
        { regs := s.regs, pc := s.pc + 1, pending := rest, responses := s.responses ++ [.writeError] })) ∧
  (Response.data .readError = some 0 ∧ Response.data .writeError = none) ∧
  (∀ s : State, (∀ f, step s ≠ .fault f) → hostStep s = step s)

/-- R65: 0x3C is the one unmapped offset among the multiples of 4, for reads and for writes. -/
def Obligations.OnlyOffset3CIsUnmapped : Prop :=
  ∀ (s : State) (addr : Offset) (v : Word), addr.toNat % 4 = 0 →
    (addr = 0x3C → memRead addr 4 s = .error (.busError 0x3C 4) ∧ memWrite addr 4 v s = .fault (.busError 0x3C 4)) ∧
    (addr ≠ 0x3C → (∃ x, memRead addr 4 s = .ok x) ∧ ∃ t, memWrite addr 4 v s = .next t)

/-- R66: a write to a read-only register completes and has no effect; a write to STATUS changes only its W1C
bits. -/
def Obligations.ReadOnlyRegistersIgnoreWrites : Prop :=
  (∀ (s : State) (r : Reg) (v : Word), readOnlyReg r → memWrite r.offset 4 v s = .next s) ∧
  (∀ (s : State) (v : Word), ∃ st : Status,
    memWrite (Reg.offset .status) 4 v s = .next (s.withRegs { s.regs with status := st }) ∧
      st.erridx = s.regs.status.erridx ∧ (∀ f : Flag, st.flag f = true → s.regs.status.flag f = true))

/-- R67: a reserved bit reads 0 in every register; what is written to it changes nothing in every register but CMD;
in CMD it makes the command illegal. -/
def Obligations.ReservedBitsReadZeroAndIgnoreWrites : Prop :=
  (∀ (s : State) (r : Reg), ∃ v, memRead r.offset 4 s = .ok v ∧ v &&& ~~~ definedBits r = 0) ∧
  (∀ (s : State) (r : Reg) (v : Word), r ≠ .cmd →
    ∃ t, memWrite r.offset 4 v s = .next t ∧ memWrite r.offset 4 (v &&& definedBits r) s = .next t) ∧
  (∀ (s : State) (w : Word), w &&& 0xFFFFFF80 ≠ 0 →
    memWrite (Reg.offset .cmd) 4 w s =
      .next { s with regs := { s.regs with status := { s.regs.status with illcmd := true } } })

/-- R344 with the write lines of R63: a value written to an operand register is read back by the very next access,
less its reserved bits, and every other register reads as before. -/
def Obligations.OperandWriteIsReadBack : Prop :=
  ∀ (s : State) (r : Reg) (v : Word), operandReg r →
    ∃ t, memWrite r.offset 4 v s = .next t ∧ memRead r.offset 4 t = .ok (v &&& definedBits r) ∧
      (∀ r', r' ≠ r → memRead r'.offset 4 t = memRead r'.offset 4 s) ∧
      t.pc = s.pc ∧ t.pending = s.pending ∧ t.responses = s.responses

/-- R70: a write of the same value again to an operand register or to STATUS leaves the state of writing it once. -/
def Obligations.RegisterWritesAreIdempotent : Prop :=
  ∀ (s : State) (r : Reg) (v : Word), operandReg r ∨ r = .status →
    ∃ t, memWrite r.offset 4 v s = .next t ∧ memWrite r.offset 4 v t = .next t

/-- R20 with log 4: every completed step takes one event off the list; an access moves `pc` by one and is answered,
the hardware reset is no access and moves nothing. -/
def Obligations.EachAccessAdvancesPcByOne : Prop :=
  ∀ (s t : State) (e : BusEvent) (rest : List BusEvent), s.pending = e :: rest → step s = .next t →
    t.pending = rest ∧ (e ≠ .hardReset → t.pc = s.pc + 1 ∧ ∃ a, t.responses = s.responses ++ [a]) ∧
      (e = .hardReset → t.pc = s.pc ∧ t.responses = s.responses)

/-- R347: after the host's last access the block holds its registers and does nothing (log 2). -/
def Obligations.BlockHoldsAfterLastAccess : Prop :=
  ∀ (k : Nat) (s : State), s.pending = [] → Host.Core.run Sys2Proof.core k s = .next s

/-- R60: the register space is the 64 bytes from BASE_ADDR on, wherever the platform places it. -/
def Obligations.RegisterSpaceIsSixtyFourBytes : Prop :=
  ∀ base address : Nat,
    (∀ off : Offset, address = base + off.toNat → offsetAt base address = some off) ∧
    (address < base ∨ base + 64 ≤ address → offsetAt base address = none)

/-! ### Status and errors -/

/-- R32: ERR is the OR of INVCHAR, OVF, ILLCMD and RANGE of the same read; OVF reads 0 (R153); WIDE does not
enter. -/
def Obligations.ErrSummarisesTheErrorFlags : Prop :=
  ∀ s : State, ∃ v, memRead 0x08 4 s = .ok v ∧ v.getLsbD 31 = (v.getLsbD 0 || v.getLsbD 1 || v.getLsbD 2 || v.getLsbD 3) ∧
    v.getLsbD 1 = false ∧
    (∀ b, memRead 0x08 4 (s.withRegs { s.regs with status := { s.regs.status with wide := b } }) =
      .ok (if b then v ||| 0x10 else v &&& ~~~ 0x10))

/-- R31: a sticky flag stays set through every command but `SRST`. -/
def Obligations.CommandsNeverClearAFlag : Prop :=
  ∀ (i : Instr) (s : State), i ≠ .srst →
    ∃ t, exec i s = .next t ∧ ∀ f : Flag, s.regs.status.flag f = true → t.regs.status.flag f = true

/-- R308: one access meets at most one cause, in the order BusError, illegal command, the command's own check, WIDE
(`eventCause`). A bus error is the fault of the step; any other access completes, sets the flag of its cause if it
has one, and sets no other. -/
def Obligations.OneCausePerAccess : Prop :=
  ∀ (s : State) (e : BusEvent) (rest : List BusEvent), s.pending = e :: rest →
    ((∃ f, step s = .fault f) ↔ eventCause e s.regs = .busError) ∧
    (∀ w, e = .write 0x04 4 w → ¬ commandLegal w → eventCause e s.regs = .illegalCommand) ∧
    (eventCause e s.regs ≠ .busError → ∃ t, step s = .next t ∧
      (∀ f, (eventCause e s.regs).flag = some f → t.regs.status.flag f = true) ∧
      (∀ f, t.regs.status.flag f = true →
        s.regs.status.flag f = true ∨ (eventCause e s.regs).flag = some f))

/-- R39: no command reads a flag: whatever STATUS holds, a command other than `SRST` leaves the same other registers,
sets the same flags on top of those that were set, and writes the same lane to ERRIDX or leaves it; `SRST` leaves the
same state. -/
def Obligations.NoCommandReadsStatus : Prop :=
  (∀ (i : Instr) (s : State), i ≠ .srst →
    ∃ (r : Regs) (set : Flag → Bool) (lane : Option (BitVec 3)), ∀ st : Status,
      ∃ t, exec i (s.withRegs { s.regs with status := st }) = .next t ∧
        t = s.withRegs { r with status := t.regs.status } ∧
        (∀ f : Flag, t.regs.status.flag f = (st.flag f || set f)) ∧
        t.regs.status.erridx = lane.getD st.erridx) ∧
  (∀ (s : State) (st : Status),
    ∃ t, exec .srst s = .next t ∧ exec .srst (s.withRegs { s.regs with status := st }) = .next t)

/-- R33: ERRIDX is written by a `DEC` that finds an invalid character, with its lowest invalid lane, and by `SRST`
and the hardware reset, with 0; no other command, no illegal word and no write to another register changes it. -/
def Obligations.ErridxNamesTheLastInvalidLane : Prop :=
  (∀ (i : Instr) (s : State), ∃ t, exec i s = .next t ∧
    (i = .srst → t.regs.status.erridx = 0) ∧
    (∀ nc : BitVec 3, i = .dec nc → i.WellFormed → ∀ j : Fin 5, j.val < nc.toNat →
      inAlphabet (s.regs.chars.get j) = false → (∀ k : Fin 5, k < j → inAlphabet (s.regs.chars.get k) = true) →
      t.regs.status.erridx.toNat = j.val) ∧
    (i ≠ .srst → (∀ nc : BitVec 3, i = .dec nc → i.WellFormed → realLanesValid s nc.toNat) →
      t.regs.status.erridx = s.regs.status.erridx)) ∧
  (∀ (s : State) (r : Reg) (v : Word), r ≠ .cmd →
    ∃ t, memWrite r.offset 4 v s = .next t ∧ t.regs.status.erridx = s.regs.status.erridx) ∧
  (∀ (s : State) (w : Word), ¬ commandLegal w →
    ∃ t, memWrite 0x04 4 w s = .next t ∧ t.regs.status.erridx = s.regs.status.erridx) ∧
  (∀ (s : State) (rest : List BusEvent), s.pending = .hardReset :: rest →
    ∃ t, step s = .next t ∧ t.regs.status.erridx = 0)

/-- R27, R29, R30, R35, with the write lists of R123, R124, R150, R180, R210, R212, R240: which registers a command
may change. No command changes LEN or LUTIN, `SRST` aside, a well-formed command other than `DEC`, `ALOOK`, `ILOOK` and
`SRST` leaves STATUS as it was (R308), and none touches the run of the host program. -/
def Obligations.CommandsWriteOnlyTheirRegisters : Prop :=
  ∀ (i : Instr) (s : State), ∃ t, exec i s = .next t ∧ t = s.withRegs t.regs ∧
    ((∀ n, i ≠ .enc n) → (∀ n, i ≠ .dec n) → i ≠ .srst →
      t.regs.word = s.regs.word ∧ t.regs.cha = s.regs.cha ∧ t.regs.chb = s.regs.chb ∧
        t.regs.digits = s.regs.digits ∧ t.regs.keep = s.regs.keep) ∧
    (i ≠ .pade → i ≠ .padd → i ≠ .srst →
      t.regs.padinfo = s.regs.padinfo ∧ t.regs.groups = s.regs.groups ∧ t.regs.outlen = s.regs.outlen) ∧
    (i ≠ .alook → i ≠ .ilook → i ≠ .srst → t.regs.lutout = s.regs.lutout) ∧
    (i ≠ .srst → t.regs.len = s.regs.len ∧ t.regs.lutin = s.regs.lutin) ∧
    (i.WellFormed → (∀ n, i ≠ .dec n) → i ≠ .alook → i ≠ .ilook → i ≠ .srst → t.regs.status = s.regs.status)

/-! ### Reset and control -/

/-- R340: after reset ID reads its constant and every other register reads 0. -/
def Obligations.ResetRegistersReadZero : Prop :=
  ∀ r : Reg, memRead r.offset 4 State.reset = .ok (if r = .id then 0x4C583835 else 0)

/-- R241: `SRST` gives every register its reset value and touches nothing of the run; 0x00000017 does not reset. -/
def Obligations.SrstRestoresTheResetState : Prop :=
  ∀ s : State,
    (∃ t, exec .srst s = .next t ∧ (∀ r : Reg, memRead r.offset 4 t = memRead r.offset 4 State.reset) ∧
      t.regs = State.reset.regs ∧ t.pc = s.pc ∧ t.pending = s.pending ∧ t.responses = s.responses) ∧
    memWrite 0x04 4 0x00000017 s =
      .next { s with regs := { s.regs with status := { s.regs.status with illcmd := true } } }

/-- R341: the hardware reset puts the block into the state of R340; `pc` and the answers are the model's (log 4). -/
def Obligations.HardwareResetRestoresTheResetState : Prop :=
  ∀ (s : State) (rest : List BusEvent), s.pending = .hardReset :: rest →
    ∃ t, step s = .next t ∧ (∀ r : Reg, memRead r.offset 4 t = memRead r.offset 4 State.reset) ∧
      t.regs = State.reset.regs ∧ t.pending = rest ∧ t.pc = s.pc ∧ t.responses = s.responses

/-- R342: a command whose operands were never written computes from their reset values. -/
def Obligations.UnwrittenOperandsReadAsReset : Prop :=
  (∃ t, exec (.enc 4) State.reset = .next t ∧ t.regs.chars.toList = [0x23, 0x23, 0x23, 0x23, 0x23]) ∧
  (∃ t, exec (.dec 1) State.reset = .next t ∧ t.regs.status.invchar = true ∧ t.regs.status.erridx = 0) ∧
  (∃ t, exec .pade State.reset = .next t ∧ t.regs.outlen33 = 0 ∧ t.regs.groups = 0 ∧ t.regs.padinfo = ⟨0, 0, false⟩) ∧
  (∃ t, exec .padd State.reset = .next t ∧ t.regs.outlen33 = 0 ∧ t.regs.groups = 0 ∧ t.regs.padinfo = ⟨0, 0, false⟩)

/-- R240: `NOP` has no effect; 0x00000000 is its only word, and 0x00000010 is illegal. -/
def Obligations.NopHasNoEffect : Prop :=
  (∀ s : State, exec .nop s = .next s) ∧ (∀ w : Word, decode w = .ok .nop ↔ w = 0) ∧
    (∀ s : State, memWrite 0x04 4 0x00000010 s =
      .next { s with regs := { s.regs with status := { s.regs.status with illcmd := true } } })

/-! ### The alphabet -/

/-- R122: the inverse ROM holds the position of every character of the alphabet ROM and (0, 0) for every other
code; 85 codes are valid and 171 are not, the listed ones. (With the increasing order of the codes, which R121
states.) -/
def Obligations.InverseRomHoldsTheListedCodes : Prop :=
  (∀ (c : Byte) (v : Nat), v ≤ 84 → c = alpha v → inverse c = ⟨true, BitVec.ofNat 7 v⟩) ∧
  (∀ c : Byte, (∀ v : Nat, v ≤ 84 → c ≠ alpha v) → inverse c = ⟨false, 0⟩) ∧
  (∀ c : Byte, inAlphabet c = false ↔
    c.toNat ≤ 0x22 ∨ c.toNat = 0x27 ∨ c.toNat = 0x2C ∨ (0x2E ≤ c.toNat ∧ c.toNat ≤ 0x2F) ∨ c.toNat = 0x5C ∨
      c.toNat = 0x60 ∨ 0x7E ≤ c.toNat) ∧
  ((List.range 256).filter (fun c => inAlphabet (BitVec.ofNat 8 c))).length = 85 ∧
  ((List.range 256).filter (fun c => !inAlphabet (BitVec.ofNat 8 c))).length = 171 ∧
  (∀ u v : Nat, u < v → v ≤ 84 → (alpha u).toNat < (alpha v).toNat)

/-- R127: the two ROMs are inverse to each other, and so are the two lookup commands. -/
def Obligations.LookupsAreInverse : Prop :=
  (∀ v : Nat, v ≤ 84 → inverse (alpha v) = ⟨true, BitVec.ofNat 7 v⟩) ∧
  (∀ (c : Byte) (v : Digit), inverse c = ⟨true, v⟩ → alpha v.toNat = c) ∧
  (∀ s : State, s.regs.lutin.toNat ≤ 84 →
    ∃ t u, exec .alook s = .next t ∧ exec .ilook (t.withRegs { t.regs with lutin := t.regs.lutout.data }) = .next u ∧
      u.regs.lutout = ⟨true, s.regs.lutin⟩) ∧
  (∀ s : State, inAlphabet s.regs.lutin = true →
    ∃ t u, exec .ilook s = .next t ∧ exec .alook (t.withRegs { t.regs with lutin := t.regs.lutout.data }) = .next u ∧
      u.regs.lutout = ⟨true, s.regs.lutin⟩)

/-- R123, R125: `ALOOK` of 0..84 gives the character; of 85..255 it gives LUTOUT = 0 and RANGE. Nothing else
changes. -/
def Obligations.AlookReturnsTheCharacter : Prop :=
  ∀ s : State,
    (∀ v : Nat, s.regs.lutin.toNat = v → v ≤ 84 →
      ∃ c : Byte, alphabet[v]? = some c ∧ exec .alook s = .next (s.withRegs { s.regs with lutout := ⟨true, c⟩ })) ∧
    (85 ≤ s.regs.lutin.toNat → exec .alook s = .next (s.withRegs
      { s.regs with lutout := ⟨false, 0⟩, status := { s.regs.status with range := true } }))

/-- R124, R126: `ILOOK` of a character of the alphabet gives its position; of any other it gives LUTOUT = 0 and
INVCHAR. Nothing else changes, ERRIDX among it. -/
def Obligations.IlookReturnsTheValue : Prop :=
  ∀ s : State,
    (∀ v : Nat, alphabet[v]? = some s.regs.lutin → exec .ilook s = .next (s.withRegs
      { s.regs with lutout := ⟨true, BitVec.ofNat 8 v⟩ })) ∧
    (s.regs.lutin ∉ alphabet → exec .ilook s = .next (s.withRegs
      { s.regs with lutout := ⟨false, 0⟩, status := { s.regs.status with invchar := true } }))

/-! ### The group encoder -/

/-- R150, R151, R152, R154: `ENC nb` encodes the word whose lanes from `nb` up are zero, writes that word back, its
digits, which lie in 0..84 and spell it, their characters, and `KEEP = nb + 1`; nothing else changes, the flags
among it. -/
def Obligations.EncEncodesTheZeroFilledWord : Prop :=
  ∀ (s : State) (nb : BitVec 3), 1 ≤ nb.toNat → nb.toNat ≤ 4 →
    ∃ t, exec (.enc nb) s = .next t ∧
      (∀ j : Fin 4, byteLane t.regs.word j = if j.val < nb.toNat then byteLane s.regs.word j else 0) ∧
      (nb = 4 → t.regs.word = s.regs.word) ∧
      (∀ i : Fin 5, (t.regs.digits.get i).toNat = t.regs.word.toNat / 85 ^ (4 - i.val) % 85 ∧
        (t.regs.digits.get i).toNat ≤ 84 ∧ alphabet[(t.regs.digits.get i).toNat]? = some (t.regs.chars.get i)) ∧
      t.regs.word.toNat = digitSum t.regs.digits ∧
      t.regs.keep.toNat = nb.toNat + 1 ∧
      t = s.withRegs { s.regs with
        word := t.regs.word, cha := t.regs.cha, chb := t.regs.chb, digits := t.regs.digits, keep := t.regs.keep }

/-- R93 for the counts of `ENC` and `DEC`: out of range, the command's whole effect is ILLCMD (log 6). -/
def Obligations.CountOutOfRangeSetsIllcmd : Prop :=
  ∀ (s : State) (n : BitVec 3),
    (n.toNat = 0 ∨ 5 ≤ n.toNat → exec (.enc n) s =
      .next { s with regs := { s.regs with status := { s.regs.status with illcmd := true } } }) ∧
    (n.toNat = 0 ∨ 6 ≤ n.toNat → exec (.dec n) s =
      .next { s with regs := { s.regs with status := { s.regs.status with illcmd := true } } })

/-- R156: every character `ENC` writes is in the alphabet, the first digit is at most 82, so the first character is
neither of the last two; the largest word gives the digits 82, 23, 54, 12, 0. -/
def Obligations.EncOutputStaysInTheAlphabet : Prop :=
  ∀ (s : State) (nb : BitVec 3), 1 ≤ nb.toNat → nb.toNat ≤ 4 →
    ∃ t, exec (.enc nb) s = .next t ∧ (∀ i : Fin 5, inAlphabet (t.regs.chars.get i) = true) ∧
      (t.regs.digits.get 0).toNat ≤ 82 ∧ t.regs.chars.get 0 ≠ 0x7C ∧ t.regs.chars.get 0 ≠ 0x7D ∧
      (t.regs.word = 0xFFFFFFFF → t.regs.digits = ⟨82, 23, 54, 12, 0⟩ ∧
        t.regs.chars = ⟨0x7B, 0x3E, 0x5E, 0x33, 0x23⟩)

/-- R157: both extractors give the digits of R154 for every word, and the divider's last quotient is 0. -/
def Obligations.ExtractorsGiveTheSameDigits : Prop :=
  ∀ (e : Extractor) (n : Nat), n < 2 ^ 32 →
    (∀ i : Fin 5, ((extractorDigits e n).get i).toNat = n / 85 ^ (4 - i.val) % 85) ∧ n / 85 / 85 / 85 / 85 / 85 = 0

/-- R158: distinct zero-filled words give distinct digit strings and distinct character strings, whatever the two
counts; the digits determine the word by their sum. -/
def Obligations.EncIsInjective : Prop :=
  ∀ (s s' : State) (nb nb' : BitVec 3), (Instr.enc nb).WellFormed → (Instr.enc nb').WellFormed →
    ∃ t t', exec (.enc nb) s = .next t ∧ exec (.enc nb') s' = .next t' ∧
      (t.regs.digits = t'.regs.digits → t.regs.word = t'.regs.word) ∧
      (t.regs.chars = t'.regs.chars → t.regs.word = t'.regs.word) ∧ t.regs.word.toNat = digitSum t.regs.digits

/-! ### The group decoder -/

/-- R183, R186, R187 with R180: a `DEC nc` whose real lanes are in the alphabet pads the other lanes with the
character of value 84, writes characters, digits, the value mod 2^32 and its bytes, and `KEEP = nc - 1`; WIDE is set
when the value is 2^32 or more, ERR never changes, and nothing else does. -/
def Obligations.DecDecodesThePaddedGroup : Prop :=
  ∀ (s : State) (nc : BitVec 3), 1 ≤ nc.toNat → nc.toNat ≤ 5 → realLanesValid s nc.toNat →
    ∃ t, exec (.dec nc) s = .next t ∧
      (∀ i : Fin 5, t.regs.chars.get i = decodedChar s nc.toNat i) ∧
      (∀ i : Fin 5, t.regs.digits.get i = (inverse (decodedChar s nc.toNat i)).value) ∧
      (∀ i : Fin 5, nc.toNat ≤ i.val → t.regs.digits.get i = 84) ∧
      t.regs.word.toNat = decodedValue s nc.toNat % 2 ^ 32 ∧
      (∀ j : Fin 4, (byteLane t.regs.word j).toNat = (decodedValue s nc.toNat >>> (8 * (3 - j.val))) &&& 0xFF) ∧
      t.regs.keep.toNat = nc.toNat - 1 ∧
      t.regs.status = { s.regs.status with wide := s.regs.status.wide || decide (2 ^ 32 ≤ decodedValue s nc.toNat) } ∧
      t.regs.status.err = s.regs.status.err ∧
      t = s.withRegs { s.regs with
        status := t.regs.status, word := t.regs.word, cha := t.regs.cha, chb := t.regs.chb,
        digits := t.regs.digits, keep := t.regs.keep }

/-- R182: the value of a `DEC` is the sum of the digits it writes and lies in 0..85^5 - 1. -/
def Obligations.DecValueFitsThirtyThreeBits : Prop :=
  ∀ (s : State) (nc : BitVec 3), 1 ≤ nc.toNat → nc.toNat ≤ 5 → realLanesValid s nc.toNat →
    ∃ t, exec (.dec nc) s = .next t ∧ digitSum t.regs.digits = decodedValue s nc.toNat ∧
      decodedValue s nc.toNat ≤ 4437053124 ∧
      (decodedValue s nc.toNat = 4437053124 ↔ ∀ i : Fin 5, t.regs.digits.get i = 84)

/-- R184: a `DEC` that meets an invalid real lane sets INVCHAR, writes the lowest such lane to ERRIDX and 0 to KEEP,
and writes nothing else. -/
def Obligations.DecReportsTheLowestInvalidLane : Prop :=
  ∀ (s : State) (nc : BitVec 3) (i : Fin 5), 1 ≤ nc.toNat → nc.toNat ≤ 5 → i.val < nc.toNat →
    inAlphabet (s.regs.chars.get i) = false → (∀ j : Fin 5, j < i → inAlphabet (s.regs.chars.get j) = true) →
    exec (.dec nc) s = .next { s with regs := { s.regs with
      status := { s.regs.status with invchar := true, erridx := BitVec.ofNat 3 i.val }, keep := 0 } }

/-- R181: the padding character is in the alphabet, with value 84, so no padding lane fails, and `DEC nc` never
looks at a lane from `nc` up: two states that agree on the real lanes and on everything else come out alike, the
characters themselves aside when the command fails. -/
def Obligations.DecIgnoresThePaddingLanes : Prop :=
  inverse 0x7D = ⟨true, 84⟩ ∧ ∀ (s : State) (nc : BitVec 3) (cha : Word) (chb : Byte), 1 ≤ nc.toNat → nc.toNat ≤ 5 →
    (∀ i : Fin 5, i.val < nc.toNat →
      (Regs.chars { s.regs with cha := cha, chb := chb }).get i = s.regs.chars.get i) →
    ∃ t t', exec (.dec nc) s = .next t ∧ exec (.dec nc) (s.withRegs { s.regs with cha := cha, chb := chb }) = .next t' ∧
      (realLanesValid s nc.toNat → t' = t) ∧
      (¬ realLanesValid s nc.toNat → t' = t.withRegs { t.regs with cha := cha, chb := chb })

/-- R189: a one-character group adds no byte, whether it decodes or fails, still validates its lane, and is never
the last group of an encoder's output, whose length never has remainder 1. -/
def Obligations.OneCharacterGroupKeepsNoByte : Prop :=
  (∀ s : State, ∃ t, exec (.dec 1) s = .next t ∧ t.regs.keep = 0 ∧
    (inAlphabet (s.regs.chars.get 0) = false → t.regs.status.invchar = true)) ∧
  (∀ (s : State) (nb : BitVec 3), (Instr.enc nb).WellFormed → ∃ t, exec (.enc nb) s = .next t ∧ 2 ≤ t.regs.keep.toNat) ∧
  (∀ b : List Byte, (documentEncode b).length % 5 ≠ 1)

/-- R188: decoding the kept characters of an `ENC nb`, whatever stands in the other lanes, gives back its real
bytes: the value is the kept digits' sum plus 85^p - 1 for the p dropped lanes, it lies between the encoded word
and that word plus 85^p - 1, WIDE is not set, KEEP is `nb`, and for `nb = 4` the word itself comes back. -/
def Obligations.DecRecoversTheEncodedBytes : Prop :=
  ∀ (s s' : State) (nb : BitVec 3), (Instr.enc nb).WellFormed →
    ∃ t, exec (.enc nb) s = .next t ∧
      ((∀ i : Fin 5, i.val < nb.toNat + 1 → s'.regs.chars.get i = t.regs.chars.get i) →
        ∃ u, exec (.dec (nb + 1)) s' = .next u ∧
          decodedValue s' (nb.toNat + 1) =
            (∑ i : Fin 5, if i.val < nb.toNat + 1 then 85 ^ (4 - i.val) * (t.regs.digits.get i).toNat else 0) +
              (85 ^ (4 - nb.toNat) - 1) ∧
          t.regs.word.toNat ≤ decodedValue s' (nb.toNat + 1) ∧
          decodedValue s' (nb.toNat + 1) ≤ t.regs.word.toNat + (85 ^ (4 - nb.toNat) - 1) ∧
          (∀ j : Fin 4, j.val < nb.toNat → byteLane u.regs.word j = byteLane s.regs.word j) ∧
          (nb = 4 → u.regs.word = s.regs.word) ∧
          u.regs.status = s'.regs.status ∧ u.regs.keep = nb)

/-! ### The padding calculator -/

/-- R210, R211: the results of `PADE` for every length, and nothing else changes. -/
def Obligations.PadeComputesTheEncodedLength : Prop :=
  ∀ (s : State) (l : Nat), s.regs.len.toNat = l →
    ∃ t, exec .pade s = .next t ∧
      (t.regs.padinfo.pad.toNat : Int) = (-(l : Int)) % 4 ∧ t.regs.padinfo.pad.toNat = (2 ^ 32 - l) % 4 ∧
      t.regs.groups.toNat = (l + 3) / 4 ∧ t.regs.groups.toNat ≤ 0x40000000 ∧
      t.regs.outlen33 = 5 * t.regs.groups.toNat - t.regs.padinfo.pad.toNat ∧
      t.regs.outlen33 = l + (l + 3) / 4 ∧ t.regs.outlen33 = (5 * l + 3) / 4 ∧ t.regs.outlen33 ≤ 0x13FFFFFFF ∧
      (t.regs.padinfo.outhi = true ↔ 0xCCCCCCCD ≤ l) ∧
      t.regs.padinfo.lastn.toNat = (if l = 0 then 0 else 4 - t.regs.padinfo.pad.toNat) ∧
      t = s.withRegs { s.regs with padinfo := t.regs.padinfo, groups := t.regs.groups, outlen := t.regs.outlen }

/-- R212, R213: the results of `PADD` for every length, and nothing else changes. -/
def Obligations.PaddComputesTheDecodedLength : Prop :=
  ∀ (s : State) (m : Nat), s.regs.len.toNat = m →
    ∃ t, exec .padd s = .next t ∧
      (t.regs.padinfo.pad.toNat : Int) = (-(m : Int)) % 5 ∧
      t.regs.groups.toNat = (m + 4) / 5 ∧ t.regs.groups.toNat ≤ 0x33333333 ∧
      t.regs.outlen.toNat = 4 * t.regs.groups.toNat - t.regs.padinfo.pad.toNat ∧
      t.regs.outlen.toNat = m - (m + 4) / 5 ∧ t.regs.outlen.toNat ≤ 0xCCCCCCCC ∧ t.regs.padinfo.outhi = false ∧
      t.regs.padinfo.lastn.toNat = (if m = 0 then 0 else 5 - t.regs.padinfo.pad.toNat) ∧
      t = s.withRegs { s.regs with padinfo := t.regs.padinfo, groups := t.regs.groups, outlen := t.regs.outlen }

/-- R214: the mod-5 pad is that of the unsigned length; the residue of the 32-bit negation is one more (mod 5) for
every nonzero length. -/
def Obligations.PaddPadIsOfTheUnsignedLength : Prop :=
  ∀ s : State, ∃ t, exec .padd s = .next t ∧
    (t.regs.padinfo.pad.toNat + s.regs.len.toNat) % 5 = 0 ∧ t.regs.padinfo.pad.toNat < 5 ∧
    (s.regs.len ≠ 0 → (- s.regs.len).toNat % 5 = (t.regs.padinfo.pad.toNat + 1) % 5)

/-- R215: `PADD` of the encoded length of `L` gives the pad and the groups of `PADE` of `L`, and the length `L`
back. -/
def Obligations.PaddUndoesPade : Prop :=
  ∀ s s' : State, ∃ t, exec .pade s = .next t ∧
    (s'.regs.len.toNat = t.regs.outlen33 →
      ∃ u, exec .padd s' = .next u ∧ u.regs.padinfo.pad = t.regs.padinfo.pad ∧ u.regs.groups = t.regs.groups ∧
        u.regs.outlen = s.regs.len)

/-- R216: a length with remainder 1 is no encoded length, yet `PADD` gives its results: pad 4, last count 1, and the
length the other groups alone give. -/
def Obligations.RemainderOneIsNoEncodedLength : Prop :=
  (∀ s : State, ∃ t, exec .pade s = .next t ∧ t.regs.outlen33 % 5 ≠ 1) ∧
  (∀ s : State, s.regs.len.toNat % 5 = 1 → ∃ t, exec .padd s = .next t ∧ t.regs.padinfo.pad = 4 ∧
    t.regs.padinfo.lastn = 1 ∧ t.regs.outlen.toNat = 4 * (t.regs.groups.toNat - 1))

/-! ### The whole machine -/

/-- Every step keeps the invariant: the registers hold only legal values (R26, R27, R29, R30, R33, R35), and every
access so far has one answer (logs 1, 5). -/
def Obligations.StepKeepsTheInvariant : Prop :=
  ∀ s t : State, Inv s → step s = .next t → Inv t

/-- The invariant holds at reset. -/
def Obligations.ResetMeetsTheInvariant : Prop := Inv State.reset

/-! ### The host's procedures -/

/-- R261: from any state with clean flags, `ENCODE_BUFFER` returns the document's `encode`, whatever bytes the host
places past the end of its buffer, and leaves the flags as they were. A buffer of any length, split at multiples of
four bytes into parts that fit a call, gives the same output (N14). The procedures' form is the model's (logs 10,
18). -/
def Obligations.EncodeBufferComputesEncode : Prop :=
  (∀ (junk : Nat → Byte) (b : List Byte) (s : State), b.length < 2 ^ 32 → s.regs.flagsClear →
    ∃ t, encodeBuffer junk b s = some (.returned (documentEncode b), t) ∧ t.regs.status = s.regs.status) ∧
  (∀ (junk : Nat → Nat → Byte) (parts : List (List Byte)) (s : State), splitLegal 4 parts → s.regs.flagsClear →
    ∃ t, encodeParts junk parts s = some (.returned (documentEncode parts.flatten), t) ∧
      t.regs.status = s.regs.status) ∧
  (∀ (junk : Nat → Nat → Byte) (b : List Byte) (s : State), s.regs.flagsClear →
    ∃ t, encodeLong junk b s = some (.returned (documentEncode b), t) ∧ t.regs.status = s.regs.status)

/-- R264: from any state with clean flags, `DECODE_BUFFER` returns the document's `decode` where that is defined and
fails where it is not, with INVCHAR the one error its STATUS word names, whatever the host places past the end of its
string. A host that checks STATUS after each `DEC` and stops at the first error has the same output and the same
failure (R263), and so has a host that splits a string of any length at multiples of five characters (N14). The
procedures' form is the model's (logs 10, 17, 18). -/
def Obligations.DecodeBufferComputesDecode : Prop :=
  (∀ (junk : Nat → Byte) (x : List Byte) (s : State), x.length < 2 ^ 32 → s.regs.flagsClear →
    (∀ b, documentDecode x = some b →
      ∃ t, decodeBuffer junk x s = some (.returned b, t) ∧ decodeBufferChecked junk x s = some (.returned b, t)) ∧
    (documentDecode x = none →
      (∃ st t, decodeBuffer junk x s = some (.failed st, t) ∧ st &&& 0x8000000F = 0x80000001) ∧
      (∃ st t, decodeBufferChecked junk x s = some (.failed st, t) ∧ st &&& 0x8000000F = 0x80000001))) ∧
  (∀ (junk : Nat → Nat → Byte) (parts : List (List Byte)) (s : State), splitLegal 5 parts → s.regs.flagsClear →
    (∀ b, documentDecode parts.flatten = some b → ∃ t, decodeParts junk parts s = some (.returned b, t)) ∧
    (documentDecode parts.flatten = none →
      ∃ st t, decodeParts junk parts s = some (.failed st, t) ∧ st &&& 0x8000000F = 0x80000001))

/-- R263: with an error flag left set, a call of either procedure fails and returns no output, with the STATUS word
whose flags name the error, and so does a call by a host that checks after each `DEC` (logs 10, 17). -/
def Obligations.StaleErrorFlagFailsTheCall : Prop :=
  ∀ (junk : Nat → Byte) (b : List Byte) (s : State), b.length < 2 ^ 32 → s.regs.status.err = true →
    (∃ st t, encodeBuffer junk b s = some (.failed st, t) ∧ st.getLsbD 31 = true) ∧
    (∃ st t, decodeBuffer junk b s = some (.failed st, t) ∧ st.getLsbD 31 = true) ∧
    (∃ st t, decodeBufferChecked junk b s = some (.failed st, t) ∧ st.getLsbD 31 = true)

/-- R265: for every buffer `ENCODE_BUFFER` takes, decoding what it returned gives the buffer back, exactly, with no
flag set: by `DECODE_BUFFER` where the string is no longer than LEN can say, and for every string by a host that
splits it at multiples of five characters, however it does, the longest parts among the ways (N14). The procedures'
form is the model's (logs 10, 15, 18). -/
def Obligations.RoundTripReturnsTheBuffer : Prop :=
  ∀ (junk : Nat → Byte) (b : List Byte) (s : State), b.length < 2 ^ 32 → s.regs.flagsClear →
    ∃ x t, encodeBuffer junk b s = some (.returned x, t) ∧
      (∀ junk' : Nat → Byte, x.length < 2 ^ 32 →
        ∃ u, decodeBuffer junk' x t = some (.returned b, u) ∧ u.regs.status = s.regs.status) ∧
      (∀ (junk' : Nat → Nat → Byte) (parts : List (List Byte)), parts.flatten = x → splitLegal 5 parts →
        ∃ u, decodeParts junk' parts t = some (.returned b, u) ∧ u.regs.status = s.regs.status) ∧
      (∀ junk' : Nat → Nat → Byte,
        ∃ u, decodeLong junk' x t = some (.returned b, u) ∧ u.regs.status = s.regs.status)

/-- R265, the document's own contract: `decode(encode(B))` is `B`, for every buffer of every length. -/
def Obligations.DocumentDecodeInvertsEncode : Prop :=
  ∀ b : List Byte, documentDecode (documentEncode b) = some b

/-- R266: the length of an encoded buffer. -/
def Obligations.EncodedLengthFormula : Prop :=
  ∀ (junk : Nat → Byte) (b : List Byte) (s : State), b.length < 2 ^ 32 → s.regs.flagsClear →
    ∃ x t, encodeBuffer junk b s = some (.returned x, t) ∧ x.length = b.length + (b.length + 3) / 4 ∧
      (x.length : Int) = 5 * (((b.length + 3) / 4 : Nat) : Int) - (-(b.length : Int)) % 4 ∧
      x.length = (5 * b.length + 3) / 4

/-- R268: every character of an encoded buffer is in the alphabet, and a string with a character outside it is
rejected. -/
def Obligations.BuffersStayInTheAlphabet : Prop :=
  (∀ (junk : Nat → Byte) (b : List Byte) (s : State), b.length < 2 ^ 32 → s.regs.flagsClear →
    ∃ x t, encodeBuffer junk b s = some (.returned x, t) ∧ ∀ c ∈ x, c ∈ alphabet) ∧
  (∀ (junk : Nat → Byte) (x : List Byte) (s : State), x.length < 2 ^ 32 → (∃ c ∈ x, c ∉ alphabet) →
    ∃ st t, decodeBuffer junk x s = some (.failed st, t) ∧ st.getLsbD 0 = true)

/-- R97: the expansion of every pseudo-instruction; a count out of range is refused; a raw write to CMD takes
any word; CLRSTAT clears every W1C flag. -/
def Obligations.PseudoInstructionsExpand : Prop :=
  AsmLine.assemble (.command .nop) = some [.write 0x04 4 0x00000000] ∧
  (∀ nb : BitVec 3, AsmLine.assemble (.command (.enc nb)) =
    if 1 ≤ nb.toNat ∧ nb.toNat ≤ 4 then some [.write 0x04 4 (BitVec.ofNat 32 (nb.toNat * 16 + 1))] else none) ∧
  (∀ nc : BitVec 3, AsmLine.assemble (.command (.dec nc)) =
    if 1 ≤ nc.toNat ∧ nc.toNat ≤ 5 then some [.write 0x04 4 (BitVec.ofNat 32 (nc.toNat * 16 + 2))] else none) ∧
  AsmLine.assemble (.command .pade) = some [.write 0x04 4 0x00000003] ∧
  AsmLine.assemble (.command .padd) = some [.write 0x04 4 0x00000004] ∧
  AsmLine.assemble (.command .alook) = some [.write 0x04 4 0x00000005] ∧
  AsmLine.assemble (.command .ilook) = some [.write 0x04 4 0x00000006] ∧
  AsmLine.assemble (.command .srst) = some [.write 0x04 4 0x00000007] ∧
  AsmLine.assemble .clrstat = some [.write 0x08 4 0x0000001D] ∧
  (∀ w : Word, AsmLine.assemble (.wr .cmd w) = some [.write 0x04 4 w]) ∧
  (∀ s : State, ∃ t, memWrite 0x08 4 0x0000001D s = .next t ∧ ∀ f : Flag, t.regs.status.flag f = false)
end

