-- ==== Sys2Proof/Laws/Alphabet.lean ====
section
/-! SUPPORT. The two ROMs (spec/40_alphabet.md R121, R122, R127). -/

namespace Sys2Proof.Machine

theorem alphabet_length : alphabet.length = 85 := rfl

/-- The inverse ROM holds the position of each of the 85 characters. -/
theorem inverse_alpha (v : Nat) (h : v ≤ 84) : inverse (alpha v) = ⟨true, BitVec.ofNat 7 v⟩ := by
  have key : ∀ u : Fin 85, inverse (alpha u.val) = ⟨true, BitVec.ofNat 7 u.val⟩ := by decide
  exact key ⟨v, by omega⟩

theorem inAlphabet_alpha (v : Nat) (h : v ≤ 84) : inAlphabet (alpha v) = true := by
  simp [inAlphabet, inverse_alpha v h]

/-- What the search answers: a position of the list whose character it is, or that there is none. -/
theorem inverseFrom_spec (as : List Byte) (v : Nat) (c : Byte) :
    (∃ k, as[k]? = some c ∧ inverseFrom as v c = ⟨true, BitVec.ofNat 7 (v + k)⟩) ∨
      (c ∉ as ∧ inverseFrom as v c = ⟨false, 0#7⟩) := by
  induction as generalizing v with
  | nil => exact .inr ⟨by simp, rfl⟩
  | cons a rest ih =>
    by_cases h : a = c
    · exact .inl ⟨0, by simp [h], by simp [inverseFrom, h]⟩
    · rcases ih (v + 1) with ⟨k, hk, he⟩ | ⟨hn, he⟩
      · exact .inl ⟨k + 1, by simpa using hk, by simp [inverseFrom, h, he, Nat.add_assoc, Nat.add_comm 1 k]⟩
      · exact .inr ⟨by simp [hn, Ne.symm h], by simp [inverseFrom, h, he]⟩

/-- An entry of the inverse ROM is valid exactly for a character of the alphabet, and holds its position, at most 84
(R122). -/
theorem inverse_spec (c : Byte) :
    (∃ k, k ≤ 84 ∧ alphabet[k]? = some c ∧ alpha k = c ∧ inverse c = ⟨true, BitVec.ofNat 7 k⟩) ∨
      (c ∉ alphabet ∧ inverse c = ⟨false, 0#7⟩) := by
  rcases inverseFrom_spec alphabet 0 c with ⟨k, hk, he⟩ | h
  · have hlt : k < alphabet.length := (List.getElem?_eq_some_iff.mp hk).1
    rw [alphabet_length] at hlt
    exact .inl ⟨k, by omega, hk, by simp [alpha, List.getD, hk], by simpa [inverse] using he⟩
  · exact .inr h

theorem inAlphabet_iff_mem (c : Byte) : inAlphabet c = true ↔ c ∈ alphabet := by
  rcases inverse_spec c with ⟨k, _, hk, _, he⟩ | ⟨hn, he⟩
  · simp [inAlphabet, he, List.mem_of_getElem? hk]
  · simp [inAlphabet, he, hn]

/-- A value the inverse ROM gives is a digit. -/
theorem inverse_value_le (c : Byte) : (inverse c).value.toNat ≤ 84 := by
  rcases inverse_spec c with ⟨k, hk, _, _, he⟩ | ⟨_, he⟩
  · rw [he, BitVec.toNat_ofNat]
    omega
  · rw [he]
    decide

end Sys2Proof.Machine
end

