-- ==== Sys2Proof/Laws/State.lean ====
section
/-! SUPPORT. One lemma per field per update of the state, so that no proof unfolds a record update. -/

namespace Sys2Proof.Machine

variable (s : State) (r : Regs) (f : Flag) (rest : List BusEvent) (a : Response) (c : Lanes Byte)

@[simp] theorem State.withRegs_regs : (s.withRegs r).regs = r := rfl
@[simp] theorem State.withRegs_pc : (s.withRegs r).pc = s.pc := rfl
@[simp] theorem State.withRegs_pending : (s.withRegs r).pending = s.pending := rfl
@[simp] theorem State.withRegs_responses : (s.withRegs r).responses = s.responses := rfl
@[simp] theorem State.withRegs_withRegs (r' : Regs) : (s.withRegs r').withRegs r = s.withRegs r := rfl
@[simp] theorem State.withRegs_self : s.withRegs s.regs = s := rfl

/-- Raising a flag writes STATUS and nothing else. -/
theorem State.raise_eq_withRegs :
    s.raise f = s.withRegs { s.regs with status := s.regs.status.setSticky f } := rfl
@[simp] theorem State.raise_regs : (s.raise f).regs = { s.regs with status := s.regs.status.setSticky f } := rfl
@[simp] theorem State.raise_pc : (s.raise f).pc = s.pc := rfl
@[simp] theorem State.raise_pending : (s.raise f).pending = s.pending := rfl
@[simp] theorem State.raise_responses : (s.raise f).responses = s.responses := rfl

@[simp] theorem State.complete_regs : (s.complete rest a).regs = s.regs := rfl
@[simp] theorem State.complete_pc : (s.complete rest a).pc = s.pc + 1 := rfl
@[simp] theorem State.complete_pending : (s.complete rest a).pending = rest := rfl
@[simp] theorem State.complete_responses : (s.complete rest a).responses = s.responses ++ [a] := rfl

@[simp] theorem Regs.setChars_cha : (r.setChars c).cha = packWord c.l0 c.l1 c.l2 c.l3 := rfl
@[simp] theorem Regs.setChars_chb : (r.setChars c).chb = c.l4 := rfl
@[simp] theorem Regs.setChars_status : (r.setChars c).status = r.status := rfl
@[simp] theorem Regs.setChars_word : (r.setChars c).word = r.word := rfl
@[simp] theorem Regs.setChars_digits : (r.setChars c).digits = r.digits := rfl
@[simp] theorem Regs.setChars_keep : (r.setChars c).keep = r.keep := rfl
@[simp] theorem Regs.setChars_len : (r.setChars c).len = r.len := rfl
@[simp] theorem Regs.setChars_padinfo : (r.setChars c).padinfo = r.padinfo := rfl
@[simp] theorem Regs.setChars_groups : (r.setChars c).groups = r.groups := rfl
@[simp] theorem Regs.setChars_outlen : (r.setChars c).outlen = r.outlen := rfl
@[simp] theorem Regs.setChars_lutin : (r.setChars c).lutin = r.lutin := rfl
@[simp] theorem Regs.setChars_lutout : (r.setChars c).lutout = r.lutout := rfl

@[simp] theorem Status.setSticky_erridx (st : Status) : (st.setSticky f).erridx = st.erridx := by
  cases f <;> rfl

/-- Setting a sticky flag sets that flag and leaves the others (R31). -/
@[simp] theorem Status.flag_setSticky (st : Status) (g : Flag) :
    (st.setSticky f).flag g = (st.flag g || decide (f = g)) := by
  cases f <;> cases g <;> simp [Status.setSticky, Status.flag]

/-- A W1C write leaves set only a flag that was set (R31). -/
theorem Status.flag_of_writeOneToClear (st : Status) (v : Word) (g : Flag)
    (h : (st.writeOneToClear v).flag g = true) : st.flag g = true := by
  cases g <;> simp_all [Status.writeOneToClear, Status.flag]

@[simp] theorem Status.writeOneToClear_erridx (st : Status) (v : Word) :
    (st.writeOneToClear v).erridx = st.erridx := rfl

end Sys2Proof.Machine
end

