-- ==== Sys2Proof/Laws/Lanes.lean ====
section
/-! SUPPORT. Lanes: reading a lane back, and the bytes of a packed word (spec/10_state.md R38). -/

namespace Sys2Proof

@[simp] theorem Lanes.get_ofFn {α : Type} (f : Fin 5 → α) (i : Fin 5) : (Lanes.ofFn f).get i = f i := by
  fin_cases i <;> rfl

@[simp] theorem Lanes.get_map {α β : Type} (f : α → β) (x : Lanes α) (i : Fin 5) :
    (x.map f).get i = f (x.get i) := by
  fin_cases i <;> rfl

/-- Two lane records are equal when every lane is. -/
theorem Lanes.ext_get {α : Type} {x y : Lanes α} (h : ∀ i, x.get i = y.get i) : x = y := by
  obtain ⟨x0, x1, x2, x3, x4⟩ := x
  obtain ⟨y0, y1, y2, y3, y4⟩ := y
  have h0 := h 0
  have h1 := h 1
  have h2 := h 2
  have h3 := h 3
  have h4 := h 4
  simp only [Lanes.get] at h0 h1 h2 h3 h4
  subst h0 h1 h2 h3 h4
  rfl

/-- The number four packed bytes spell: the first byte is the most significant (R23, R68). -/
theorem packWord_toNat (a b c d : Byte) :
    (packWord a b c d).toNat = 2 ^ 24 * a.toNat + 2 ^ 16 * b.toNat + 2 ^ 8 * c.toNat + d.toNat := by
  have ha := a.isLt
  have hb := b.isLt
  have hc := c.isLt
  have hd := d.isLt
  simp only [packWord, BitVec.toNat_append]
  rw [← Nat.shiftLeft_add_eq_or_of_lt hb, ← Nat.shiftLeft_add_eq_or_of_lt hc, ← Nat.shiftLeft_add_eq_or_of_lt hd]
  simp only [Nat.shiftLeft_eq]
  omega

/-- The number of a byte lane: lane 0 is the most significant byte (R5). -/
theorem byteLane_toNat (v : Word) (j : Fin 4) : (byteLane v j).toNat = v.toNat / 2 ^ (24 - 8 * j.val) % 256 := by
  simp [byteLane, BitVec.extractLsb'_toNat, Nat.shiftRight_eq_div_pow]

@[simp] theorem byteLane_packWord_zero (a b c d : Byte) : byteLane (packWord a b c d) 0 = a := by
  apply BitVec.eq_of_toNat_eq
  rw [byteLane_toNat, packWord_toNat]
  simp only [Fin.val_zero]
  omega

@[simp] theorem byteLane_packWord_one (a b c d : Byte) : byteLane (packWord a b c d) 1 = b := by
  apply BitVec.eq_of_toNat_eq
  rw [byteLane_toNat, packWord_toNat]
  simp only [Fin.val_one]
  omega

@[simp] theorem byteLane_packWord_two (a b c d : Byte) : byteLane (packWord a b c d) 2 = c := by
  apply BitVec.eq_of_toNat_eq
  rw [byteLane_toNat, packWord_toNat]
  simp only [Fin.val_two]
  omega

@[simp] theorem byteLane_packWord_three (a b c d : Byte) : byteLane (packWord a b c d) 3 = d := by
  apply BitVec.eq_of_toNat_eq
  rw [byteLane_toNat, packWord_toNat]
  have : ((3 : Fin 4) : Nat) = 3 := rfl
  simp only [this]
  omega

/-- A word is its four bytes packed again. -/
theorem packWord_byteLanes (v : Word) :
    packWord (byteLane v 0) (byteLane v 1) (byteLane v 2) (byteLane v 3) = v := by
  apply BitVec.eq_of_toNat_eq
  have h := v.isLt
  simp only [packWord_toNat, byteLane_toNat, Fin.val_zero, Fin.val_one, Fin.val_two,
    show ((3 : Fin 4) : Nat) = 3 from rfl]
  omega

namespace Machine

/-- Characters written are the characters read (R38). -/
@[simp] theorem Regs.chars_setChars (r : Regs) (c : Lanes Byte) : (r.setChars c).chars = c := by
  simp [Regs.chars]

end Machine

end Sys2Proof
end

