-- ==== Sys2Proof/Laws/Decoder.lean ====
section
/-! SUPPORT. The validation, the padding and the value of a decode group (spec/42_decoder.md R181, R182, R187). -/

namespace Sys2Proof.Machine

/-- Searching the five lanes in order finds the lowest one the test accepts. -/
theorem find_lane_eq_some (p : Fin 5 → Bool) (i : Fin 5) :
    [0, 1, 2, 3, 4].find? p = some i ↔ p i = true ∧ ∀ j < i, p j = false := by
  fin_cases i <;> simp only [List.find?_cons, List.find?_nil, Fin.forall_fin_succ, Fin.forall_fin_zero] <;>
    cases h0 : p 0 <;> simp_all <;> cases h1 : p 1 <;> simp_all <;> cases h2 : p 2 <;> simp_all <;>
    cases h3 : p 3 <;> simp_all <;> cases h4 : p 4 <;> simp_all

/-- The lane `DEC` reports: a real lane outside the alphabet below which every lane is inside (R181, R184). -/
theorem firstInvalid_eq_some (nc : Nat) (c : Lanes Byte) (i : Fin 5) :
    firstInvalid nc c = some i ↔
      i.val < nc ∧ inAlphabet (c.get i) = false ∧ ∀ j < i, inAlphabet (c.get j) = true := by
  rw [firstInvalid, find_lane_eq_some]
  constructor
  · rintro ⟨h, hj⟩
    simp only [Bool.and_eq_true, decide_eq_true_eq, Bool.not_eq_true'] at h
    refine ⟨h.1, h.2, fun j hlt => ?_⟩
    have := hj j hlt
    simp only [Bool.and_eq_false_iff, decide_eq_false_iff_not, Bool.not_eq_false'] at this
    have hlt' : j.val < i.val := hlt
    rcases this with h' | h'
    · omega
    · exact h'
  · rintro ⟨h, hn, hj⟩
    refine ⟨by simp [h, hn], fun j hlt => by simp [hj j hlt]⟩

/-- `DEC` reports no lane exactly when every real lane is in the alphabet (R181). -/
theorem firstInvalid_eq_none (nc : Nat) (c : Lanes Byte) :
    firstInvalid nc c = none ↔ ∀ i : Fin 5, i.val < nc → inAlphabet (c.get i) = true := by
  simp only [firstInvalid, List.find?_eq_none]
  constructor
  · intro h i hi
    have := h i (by fin_cases i <;> simp)
    simpa [hi] using this
  · intro h i _
    by_cases hi : i.val < nc
    · simp [h i hi]
    · simp [hi]

@[simp] theorem padChars_get (nc : Nat) (c : Lanes Byte) (i : Fin 5) :
    (padChars nc c).get i = if i.val < nc then c.get i else padChar := by
  simp [padChars]

@[simp] theorem lookupDigits_get (c : Lanes Byte) (i : Fin 5) :
    (lookupDigits c).get i = (inverse (c.get i)).value := by
  simp [lookupDigits]

/-- The notice sets WIDE for a value of 2^32 or more, and no other flag (R186). -/
@[simp] theorem Status.flag_noteWide (st : Status) (n : Nat) (f : Flag) :
    (st.noteWide n).flag f = (st.flag f || (decide (2 ^ 32 ≤ n) && decide (Flag.wide = f))) := by
  unfold Status.noteWide
  by_cases h : 2 ^ 32 ≤ n
  · rw [if_pos h, Status.flag_setSticky, decide_eq_true h, Bool.true_and]
  · rw [if_neg h, decide_eq_false h, Bool.false_and, Bool.or_false]

@[simp] theorem Status.noteWide_erridx (st : Status) (n : Nat) : (st.noteWide n).erridx = st.erridx := by
  unfold Status.noteWide
  split <;> simp

/-- WIDE does not enter ERR (R32, R186). -/
@[simp] theorem Status.noteWide_err (st : Status) (n : Nat) : (st.noteWide n).err = st.err := by
  unfold Status.noteWide
  split <;> rfl

/-- A decode group's value fits 33 bits (R182). -/
theorem accumulate_lookupDigits_lt (c : Lanes Byte) : accumulate (lookupDigits c) < 85 ^ 5 := by
  have h0 := inverse_value_le c.l0
  have h1 := inverse_value_le c.l1
  have h2 := inverse_value_le c.l2
  have h3 := inverse_value_le c.l3
  have h4 := inverse_value_le c.l4
  simp only [accumulate, lookupDigits, Lanes.map]
  omega

theorem Regs.decValue_lt (r : Regs) (nc : Nat) : r.decValue nc < 85 ^ 5 := accumulate_lookupDigits_lt _

end Sys2Proof.Machine
end

