-- ==== Sys2Proof/Laws/Encoder.lean ====
section
/-! SUPPORT. The zero fill and the digit extractor (spec/41_encoder.md R151, R154). -/

namespace Sys2Proof.Machine

/-- Masking with ones from bit `k` up clears the bits below. -/
theorem and_ones_shiftLeft (v : Word) (k : Nat) : v &&& (0xFFFFFFFF#32 <<< k) = (v >>> k) <<< k := by
  apply BitVec.eq_of_getLsbD_eq
  intro i hi
  have hone : ∀ j < 32, (0xFFFFFFFF#32).getLsbD j = true := by decide
  by_cases hk : i < k
  · simp [hk]
  · have : k + (i - k) = i := by omega
    simp [hk, hi, hone (i - k) (by omega), this]

/-- The zero-filled word as a number: the low `4 - nb` bytes are dropped to zero (R151). -/
theorem Regs.encGroup_toNat (r : Regs) (nb : Nat) :
    (r.encGroup nb).toNat = r.word.toNat / 2 ^ (8 * (4 - nb)) * 2 ^ (8 * (4 - nb)) := by
  have h := r.word.isLt
  have hle := Nat.div_mul_le_self r.word.toNat (2 ^ (8 * (4 - nb)))
  rw [Regs.encGroup, zeroFillMask, and_ones_shiftLeft, BitVec.toNat_shiftLeft, BitVec.toNat_ushiftRight,
    Nat.shiftRight_eq_div_pow, Nat.shiftLeft_eq, Nat.mod_eq_of_lt (by omega)]

theorem digitOf_le (n : Nat) (i : Fin 5) : digitOf n i ≤ 84 := by
  unfold digitOf
  omega

@[simp] theorem extractDigits_get_toNat (n : Nat) (i : Fin 5) :
    ((extractDigits n).get i).toNat = digitOf n i := by
  have := digitOf_le n i
  rw [extractDigits, Lanes.get_ofFn, BitVec.toNat_ofNat]
  omega

/-- Five digits spell every number below 85^5 (R154). -/
theorem digitOf_sum (n : Nat) (h : n < 85 ^ 5) :
    85 ^ 4 * digitOf n 0 + 85 ^ 3 * digitOf n 1 + 85 ^ 2 * digitOf n 2 + 85 * digitOf n 3 + digitOf n 4 = n := by
  simp only [digitOf, Fin.val_zero, Fin.val_one, Fin.val_two, show ((3 : Fin 5) : Nat) = 3 from rfl,
    show ((4 : Fin 5) : Nat) = 4 from rfl]
  omega

end Sys2Proof.Machine
end

