-- ==== Sys2Proof/Laws/Exec.lean ====
section
/-! SUPPORT. The branches of each command's meaning, and what every command can do. -/

namespace Sys2Proof.Machine

variable (s : State)

/-! What `ENC` and `DEC` leave in each register they write, and the registers they leave alone. -/

section fields

variable (r : Regs) (n : Nat)

@[simp] theorem Regs.afterEnc_word : (r.afterEnc n).word = r.encGroup n := rfl
@[simp] theorem Regs.afterEnc_digits : (r.afterEnc n).digits = extractDigits (r.encGroup n).toNat := rfl
@[simp] theorem Regs.afterEnc_keep : (r.afterEnc n).keep = BitVec.ofNat 3 (n + 1) := rfl
@[simp] theorem Regs.afterEnc_chars :
    (r.afterEnc n).chars = (extractDigits (r.encGroup n).toNat).map (fun d => alpha d.toNat) :=
  Regs.chars_setChars r _
@[simp] theorem Regs.afterEnc_status : (r.afterEnc n).status = r.status := rfl
@[simp] theorem Regs.afterEnc_len : (r.afterEnc n).len = r.len := rfl
@[simp] theorem Regs.afterEnc_padinfo : (r.afterEnc n).padinfo = r.padinfo := rfl
@[simp] theorem Regs.afterEnc_groups : (r.afterEnc n).groups = r.groups := rfl
@[simp] theorem Regs.afterEnc_outlen : (r.afterEnc n).outlen = r.outlen := rfl
@[simp] theorem Regs.afterEnc_lutin : (r.afterEnc n).lutin = r.lutin := rfl
@[simp] theorem Regs.afterEnc_lutout : (r.afterEnc n).lutout = r.lutout := rfl

@[simp] theorem Regs.afterDec_word : (r.afterDec n).word = BitVec.ofNat 32 (r.decValue n) := rfl
@[simp] theorem Regs.afterDec_digits : (r.afterDec n).digits = lookupDigits (padChars n r.chars) := rfl
@[simp] theorem Regs.afterDec_keep : (r.afterDec n).keep = BitVec.ofNat 3 (n - 1) := rfl
@[simp] theorem Regs.afterDec_chars : (r.afterDec n).chars = padChars n r.chars := Regs.chars_setChars r _
@[simp] theorem Regs.afterDec_status : (r.afterDec n).status = r.status.noteWide (r.decValue n) := rfl
@[simp] theorem Regs.afterDec_len : (r.afterDec n).len = r.len := rfl
@[simp] theorem Regs.afterDec_padinfo : (r.afterDec n).padinfo = r.padinfo := rfl
@[simp] theorem Regs.afterDec_groups : (r.afterDec n).groups = r.groups := rfl
@[simp] theorem Regs.afterDec_outlen : (r.afterDec n).outlen = r.outlen := rfl
@[simp] theorem Regs.afterDec_lutin : (r.afterDec n).lutin = r.lutin := rfl
@[simp] theorem Regs.afterDec_lutout : (r.afterDec n).lutout = r.lutout := rfl

end fields

theorem execNop_eq : execNop s = .next s := rfl

theorem execSrst_eq : execSrst s = .next (s.withRegs Regs.reset) := rfl

theorem execPade_eq : execPade s = .next (s.withRegs (s.regs.setPadResult (encPad s.regs.length)
    (if s.regs.length = 0 then 0 else 4 - encPad s.regs.length) (encGroups s.regs.length)
    (encOut s.regs.length))) := rfl

theorem execPadd_eq : execPadd s = .next (s.withRegs (s.regs.setPadResult (decPad s.regs.length)
    (if s.regs.length = 0 then 0 else 5 - decPad s.regs.length) (decGroups s.regs.length)
    (decOut s.regs.length))) := rfl

theorem execEnc_legal (nb : BitVec 3) (h : 1 ≤ nb.toNat ∧ nb.toNat ≤ 4) :
    execEnc nb s = .next (s.withRegs (s.regs.afterEnc nb.toNat)) := if_pos h

theorem execEnc_illegal (nb : BitVec 3) (h : ¬ (1 ≤ nb.toNat ∧ nb.toNat ≤ 4)) :
    execEnc nb s = .next (s.raise .illcmd) := if_neg h

theorem execDec_valid (nc : BitVec 3) (h : 1 ≤ nc.toNat ∧ nc.toNat ≤ 5)
    (hv : firstInvalid nc.toNat s.regs.chars = none) :
    execDec nc s = .next (s.withRegs (s.regs.afterDec nc.toNat)) := by
  simp only [execDec, h, hv, and_self, if_true]

theorem execDec_invalid (nc : BitVec 3) (h : 1 ≤ nc.toNat ∧ nc.toNat ≤ 5) (i : Fin 5)
    (hv : firstInvalid nc.toNat s.regs.chars = some i) :
    execDec nc s = .next (s.withRegs (s.regs.afterDecInvalid i)) := by
  simp only [execDec, h, hv, and_self, if_true]

theorem execDec_illegal (nc : BitVec 3) (h : ¬ (1 ≤ nc.toNat ∧ nc.toNat ≤ 5)) :
    execDec nc s = .next (s.raise .illcmd) := if_neg h

theorem execAlook_inRange (h : s.regs.lutin.toNat ≤ 84) :
    execAlook s = .next (s.withRegs { s.regs with lutout := ⟨true, alpha s.regs.lutin.toNat⟩ }) := if_pos h

theorem execAlook_outOfRange (h : ¬ s.regs.lutin.toNat ≤ 84) :
    execAlook s = .next ((s.withRegs { s.regs with lutout := ⟨false, 0#8⟩ }).raise .range) := if_neg h

theorem execIlook_valid (h : inAlphabet s.regs.lutin = true) :
    execIlook s = .next (s.withRegs
      { s.regs with lutout := ⟨true, (inverse s.regs.lutin).value.setWidth 8⟩ }) := if_pos h

theorem execIlook_invalid (h : ¬ inAlphabet s.regs.lutin = true) :
    execIlook s = .next ((s.withRegs { s.regs with lutout := ⟨false, 0#8⟩ }).raise .invchar) := if_neg h

/-- Every command completes, and changes only registers (R300, R345). -/
theorem exec_next (i : Instr) : ∃ r, exec i s = .next (s.withRegs r) := by
  cases i with
  | nop => exact ⟨s.regs, rfl⟩
  | enc nb =>
    by_cases h : 1 ≤ nb.toNat ∧ nb.toNat ≤ 4
    · exact ⟨_, execEnc_legal s nb h⟩
    · exact ⟨_, execEnc_illegal s nb h⟩
  | dec nc =>
    by_cases h : 1 ≤ nc.toNat ∧ nc.toNat ≤ 5
    · cases hf : firstInvalid nc.toNat s.regs.chars with
      | none => exact ⟨_, execDec_valid s nc h hf⟩
      | some i => exact ⟨_, execDec_invalid s nc h i hf⟩
    · exact ⟨_, execDec_illegal s nc h⟩
  | pade => exact ⟨_, rfl⟩
  | padd => exact ⟨_, rfl⟩
  | alook =>
    by_cases h : s.regs.lutin.toNat ≤ 84
    · exact ⟨_, execAlook_inRange s h⟩
    · exact ⟨_, execAlook_outOfRange s h⟩
  | ilook =>
    by_cases h : inAlphabet s.regs.lutin = true
    · exact ⟨_, execIlook_valid s h⟩
    · exact ⟨_, execIlook_invalid s h⟩
  | srst => exact ⟨_, rfl⟩

end Sys2Proof.Machine
end

