-- ==== Sys2Proof/Laws/Bus.lean ====
section
/-! SUPPORT. What a bus access and a step can do, said once. -/

namespace Sys2Proof.Machine

/-- A write to CMD runs the decoded command, or sets ILLCMD (R92, R93). -/
theorem execute_cases (w : Word) (s : State) :
    (∃ i, decode w = .ok i ∧ execute w s = exec i s) ∨
      (∃ e, decode w = .error e ∧ execute w s = .next (s.raise .illcmd)) := by
  unfold execute
  cases h : decode w with
  | ok i => exact .inl ⟨i, rfl, rfl⟩
  | error e => exact .inr ⟨e, rfl, rfl⟩

/-- A write to CMD completes, and changes only registers. -/
theorem execute_next (w : Word) (s : State) : ∃ r, execute w s = .next (s.withRegs r) := by
  rcases execute_cases w s with ⟨i, _, h⟩ | ⟨e, _, h⟩
  · obtain ⟨r, hr⟩ := exec_next s i
    exact ⟨r, h.trans hr⟩
  · exact ⟨_, h⟩

@[simp] theorem Reg.ofOffset_offset (r : Reg) : Reg.ofOffset r.offset = some r := by
  cases r <;> decide

@[simp] theorem busTarget_offset (r : Reg) : busTarget r.offset 4 = some r := by
  simp [busTarget]

/-- The register an access reaches stands at the access's offset, and the access has four bytes (R61). -/
theorem busTarget_eq_some {addr : Offset} {size : Nat} {r : Reg} (h : busTarget addr size = some r) :
    size = 4 ∧ addr = r.offset := by
  unfold busTarget at h
  split at h
  · rename_i h4
    have := List.find?_some h
    exact ⟨h4, by simpa using (beq_iff_eq.mp this).symm⟩
  · simp at h

/-- No register is reached exactly by another size, a misaligned offset, or 0x3C (R61, R65). -/
theorem busTarget_eq_none (addr : Offset) (size : Nat) :
    busTarget addr size = none ↔ size ≠ 4 ∨ addr.toNat % 4 ≠ 0 ∨ addr.toNat = 0x3C := by
  have key : ∀ a : Offset, Reg.ofOffset a = none ↔ a.toNat % 4 ≠ 0 ∨ a.toNat = 0x3C := by decide
  unfold busTarget
  split
  · rename_i h
    simp [h, key]
  · rename_i h
    simp [h]

@[simp] theorem memRead_offset (r : Reg) (s : State) : memRead r.offset 4 s = .ok (s.regs.readReg r) := by
  simp [memRead]

/-- A 4-byte write to a register: CMD runs the word, any other register takes the write. -/
theorem memWrite_offset (r : Reg) (v : Word) (s : State) :
    memWrite r.offset 4 v s =
      if r = .cmd then execute v s else .next (s.withRegs (s.regs.writeReg v r)) := by
  simp [memWrite]

/-- A 4-byte write to a register other than CMD takes effect on the registers alone (R63). -/
theorem memWrite_reg (r : Reg) (v : Word) (s : State) (h : r ≠ .cmd) :
    memWrite r.offset 4 v s = .next (s.withRegs (s.regs.writeReg v r)) := by
  rw [memWrite_offset, if_neg h]

/-- A 4-byte write to CMD runs the word (R63). -/
theorem memWrite_cmd (w : Word) (s : State) : memWrite (Reg.offset .cmd) 4 w s = execute w s := by
  rw [memWrite_offset, if_pos rfl]

/-- A bus write completes, changing only registers, or is the bus error of an access that reaches no register. -/
theorem memWrite_cases (addr : Offset) (size : Nat) (v : Word) (s : State) :
    (∃ r, memWrite addr size v s = .next (s.withRegs r)) ∨
      (busTarget addr size = none ∧ memWrite addr size v s = .fault (.busError addr size)) := by
  cases h : busTarget addr size with
  | none => exact .inr ⟨rfl, by simp [memWrite, h]⟩
  | some r =>
    by_cases hc : r = .cmd
    · obtain ⟨t, ht⟩ := execute_next v s
      exact .inl ⟨t, by simp [memWrite, h, hc, ht]⟩
    · exact .inl ⟨_, by simp only [memWrite, h, hc, if_false]; rfl⟩

/-- What a step can do: nothing is pending and nothing happens; a read is answered; a write completes, changing only
registers; the hardware reset; or the bus error of an access that reaches no register (R62 to R64, R341, R347). -/
theorem step_cases (s : State) :
    (s.pending = [] ∧ step s = .next s) ∨
    (∃ addr size rest r, s.pending = .read addr size :: rest ∧ busTarget addr size = some r ∧
      step s = .next (s.complete rest (.readData (s.regs.readReg r)))) ∨
    (∃ addr size v rest r, s.pending = .write addr size v :: rest ∧
      memWrite addr size v (s.complete rest .writeDone) = .next ((s.complete rest .writeDone).withRegs r) ∧
      step s = .next ((s.complete rest .writeDone).withRegs r)) ∨
    (∃ rest, s.pending = .hardReset :: rest ∧
      step s = .next { s with regs := Regs.reset, pending := rest }) ∨
    (∃ addr size rest, (s.pending = .read addr size :: rest ∨ ∃ v, s.pending = .write addr size v :: rest) ∧
      busTarget addr size = none ∧ step s = .fault (.busError addr size)) := by
  cases hp : s.pending with
  | nil => exact .inl ⟨rfl, by simp [step, busStep, hp]⟩
  | cons e rest =>
    cases e with
    | read addr size =>
      cases ht : busTarget addr size with
      | some r =>
        exact .inr (.inl ⟨addr, size, rest, r, rfl, ht, by simp [step, busStep, hp, perform, memRead, ht]⟩)
      | none =>
        exact .inr (.inr (.inr (.inr ⟨addr, size, rest, .inl rfl, ht, by
          simp [step, busStep, hp, perform, memRead, ht]⟩)))
    | write addr size v =>
      rcases memWrite_cases addr size v (s.complete rest .writeDone) with ⟨r, hr⟩ | ⟨hn, hf⟩
      · exact .inr (.inr (.inl ⟨addr, size, v, rest, r, rfl, hr, by simp [step, busStep, hp, perform, hr]⟩))
      · exact .inr (.inr (.inr (.inr ⟨addr, size, rest, .inr ⟨v, rfl⟩, hn, by
          simp [step, busStep, hp, perform, hf]⟩)))
    | hardReset => exact .inr (.inr (.inr (.inl ⟨rest, rfl, by simp [step, busStep, hp, perform]⟩)))

end Sys2Proof.Machine
end

