-- ==== Sys2Proof/Laws/Buffer.lean ====
section
/-! SUPPORT. The host's group procedures, each said once (spec/45_buffer_protocol.md R260, R262). -/

namespace Sys2Proof.Machine

/-- A register read always answers. -/
@[simp] theorem hostRead_eq (r : Reg) (s : State) : hostRead r s = some (s.regs.readReg r) := by
  simp [hostRead, Except.toOption]

/-- A write to a register other than CMD writes that register. -/
theorem hostWrite_reg (r : Reg) (v : Word) (s : State) (h : r ≠ .cmd) :
    hostWrite r v s = some (s.withRegs (s.regs.writeReg v r)) := by
  simp [hostWrite, memWrite_reg r v s h]

/-- A write to CMD of a word that decodes leaves the state its command leaves. -/
theorem hostWrite_cmd {w : Word} {i : Instr} {s t : State} (hd : decode w = .ok i) (he : exec i s = .next t) :
    hostWrite .cmd w s = some t := by
  simp [hostWrite, memWrite_cmd, execute, hd, he]

/-- The word the host writes for `ENC nb`. -/
theorem decode_encWord : ∀ nb : BitVec 3, (1 ≤ nb.toNat ∧ nb.toNat ≤ 4) →
    decode ((nb.setWidth 32 <<< 4) ||| 0x1#32) = .ok (.enc nb) := by decide

/-- The word the host writes for `DEC nc`. -/
theorem decode_decWord : ∀ nc : BitVec 3, (1 ≤ nc.toNat ∧ nc.toNat ≤ 5) →
    decode ((nc.setWidth 32 <<< 4) ||| 0x2#32) = .ok (.dec nc) := by decide

/-- The registers with the word the host places for encode group `g` (R260). -/
def Regs.placeWord (r : Regs) (junk : Nat → Byte) (b : List Byte) (g : Nat) : Regs :=
  r.writeReg (packWord (hostByte junk b (4 * g)) (hostByte junk b (4 * g + 1)) (hostByte junk b (4 * g + 2))
    (hostByte junk b (4 * g + 3))) .word

/-- The registers with the characters the host places for decode group `g` (R262). -/
def Regs.placeChars (r : Regs) (junk : Nat → Byte) (x : List Byte) (g : Nat) : Regs :=
  (r.writeReg (packWord (hostByte junk x (5 * g)) (hostByte junk x (5 * g + 1)) (hostByte junk x (5 * g + 2))
    (hostByte junk x (5 * g + 3))) .cha).writeReg ((hostByte junk x (5 * g + 4)).setWidth 32) .chb

@[simp] theorem Regs.placeWord_status (r : Regs) (junk : Nat → Byte) (b : List Byte) (g : Nat) :
    (r.placeWord junk b g).status = r.status := rfl

@[simp] theorem Regs.placeChars_status (r : Regs) (junk : Nat → Byte) (b : List Byte) (g : Nat) :
    (r.placeChars junk b g).status = r.status := rfl

@[simp] theorem Regs.placeChars_chars (r : Regs) (junk : Nat → Byte) (x : List Byte) (g : Nat) (i : Fin 5) :
    (r.placeChars junk x g).chars.get i = hostByte junk x (5 * g + i.val) := by
  fin_cases i <;> simp [Regs.placeChars, Regs.writeReg, Regs.chars, Lanes.get]

/-- One encode group: the block holds what `ENC nb` leaves, and the output is the first `nb + 1` characters. -/
theorem encodeGroup_eq (junk : Nat → Byte) (b : List Byte) (nb : BitVec 3) (g : Nat) (s : State)
    (h : 1 ≤ nb.toNat ∧ nb.toNat ≤ 4) :
    encodeGroup junk b nb g s =
      some (((s.regs.placeWord junk b g).afterEnc nb.toNat).chars.toList.take (nb.toNat + 1),
        s.withRegs ((s.regs.placeWord junk b g).afterEnc nb.toNat)) := by
  have hc := hostWrite_cmd (decode_encWord nb h) (execEnc_legal (s.withRegs (s.regs.placeWord junk b g)) nb h)
  have hk : (BitVec.setWidth 32 (BitVec.ofNat 3 (nb.toNat + 1))).toNat = nb.toNat + 1 := by
    simp
    omega
  have hb : ∀ c : Byte, (c.setWidth 32).setWidth 8 = c := fun c => by simp
  unfold encodeGroup
  dsimp only
  rw [hostWrite_reg .word _ s (by decide)]
  simp only [Option.bind_eq_bind, Option.bind_some]
  erw [hc]
  simp only [Option.bind_some, hostRead_eq, State.withRegs_regs, State.withRegs_withRegs, Regs.readReg,
    Regs.afterEnc_keep, hk, hb]
  rfl

/-- One decode group: the output is the first KEEP bytes of what `DEC nc` leaves. -/
theorem decodeGroup_eq (junk : Nat → Byte) (x : List Byte) (nc : BitVec 3) (g : Nat) (s t : State)
    (h : 1 ≤ nc.toNat ∧ nc.toNat ≤ 5) (he : execDec nc (s.withRegs (s.regs.placeChars junk x g)) = .next t) :
    decodeGroup junk x nc g s = some (t.regs.wordBytes.take t.regs.keep.toNat, t) := by
  have hc := hostWrite_cmd (decode_decWord nc h) he
  have hk : (BitVec.setWidth 32 t.regs.keep).toNat = t.regs.keep.toNat := by
    have := t.regs.keep.isLt
    simp
    omega
  unfold decodeGroup
  dsimp only
  rw [hostWrite_reg .cha _ s (by decide)]
  simp only [Option.bind_eq_bind, Option.bind_some]
  rw [hostWrite_reg .chb _ _ (by decide)]
  simp only [Option.bind_some, State.withRegs_regs, State.withRegs_withRegs]
  erw [hc]
  simp only [Option.bind_some, hostRead_eq, Regs.readReg, hk,
    Regs.wordBytes]

/-- Bit 31 of STATUS is ERR (R31). -/
theorem Status.toWord_getLsbD_31 (st : Status) : st.toWord.getLsbD 31 = st.err := by
  simp only [Status.toWord, BitVec.getLsbD_append]
  simp

/-- A call that ends with no error flag returns its output (R263). -/
theorem finishCall_clean (out : List Byte) (s : State) (h : s.regs.status.err = false) :
    finishCall out s = some (.returned out, s) := by
  simp only [finishCall, hostRead_eq, Option.bind_eq_bind, Option.bind_some, Regs.readReg,
    Status.toWord_getLsbD_31, h]
  rfl

/-- A call that ends with an error flag fails with the STATUS word (R263). -/
theorem finishCall_err (out : List Byte) (s : State) (h : s.regs.status.err = true) :
    finishCall out s = some (.failed s.regs.status.toWord, s) := by
  simp only [finishCall, hostRead_eq, Option.bind_eq_bind, Option.bind_some, Regs.readReg,
    Status.toWord_getLsbD_31, h]
  rfl

/-- Bits 6..4 of PADINFO are LASTN (R29). -/
theorem PadInfo.toWord_lastn (p : PadInfo) : p.toWord.extractLsb' 4 3 = p.lastn := by
  apply BitVec.eq_of_getLsbD_eq
  intro i hi
  have : i = 0 ∨ i = 1 ∨ i = 2 := by omega
  rcases this with rfl | rfl | rfl <;>
    (simp only [PadInfo.toWord, BitVec.getLsbD_append, BitVec.getLsbD_extractLsb']; simp)

/-- The start of a call with the padding command `i`: what the host reads is what `i` left for the length. -/
theorem hostLayout_eq {pad : Word} {i : Instr} {l : Nat} {s t : State} (hd : decode pad = .ok i)
    (he : exec i (s.withRegs { s.regs with len := BitVec.ofNat 32 l }) = .next t) :
    hostLayout pad l s = some (t.regs.groups.toNat, t.regs.padinfo.lastn, t) := by
  unfold hostLayout
  rw [hostWrite_reg .len _ s (by decide)]
  simp only [Option.bind_eq_bind, Option.bind_some, Regs.writeReg]
  rw [hostWrite_cmd hd he]
  simp only [Option.bind_some, hostRead_eq, Regs.readReg, PadInfo.toWord_lastn]

/-- The start of ENCODE_BUFFER: the groups and the last count of the length, STATUS untouched (R210). -/
theorem hostLayout_pade (l : Nat) (s : State) (h : l < 2 ^ 32) :
    ∃ (lastn : BitVec 3) (t : State), hostLayout 0x00000003#32 l s = some ((l + 3) / 4, lastn, t) ∧
      lastn.toNat = (if l = 0 then 0 else 4 - (4 - l % 4) % 4) ∧ t.regs.status = s.regs.status := by
  have he := execPade_eq (s.withRegs { s.regs with len := BitVec.ofNat 32 l })
  have hl : (Regs.length { s.regs with len := BitVec.ofNat 32 l }) = l := by
    simp only [Regs.length, BitVec.toNat_ofNat]
    omega
  have hg : encGroups l = (l + 3) / 4 := by
    unfold encGroups
    split <;> omega
  simp only [State.withRegs_regs, hl] at he
  have h := hostLayout_eq (pad := 0x00000003#32) (i := .pade) (by decide) he
  refine ⟨_, _, h.trans (congrArg (fun g => some (g, _, _)) ?_), ?_, ?_⟩
  · simp only [State.withRegs_regs, Regs.setPadResult, BitVec.toNat_ofNat, hg]
    rw [Nat.mod_eq_of_lt (by omega)]
  · simp only [State.withRegs_regs, Regs.setPadResult, BitVec.toNat_ofNat, encPad]
    split <;> omega
  · rfl

/-- The start of DECODE_BUFFER: the groups and the last count of the length, STATUS untouched (R212). -/
theorem hostLayout_padd (l : Nat) (s : State) (h : l < 2 ^ 32) :
    ∃ (lastn : BitVec 3) (t : State), hostLayout 0x00000004#32 l s = some ((l + 4) / 5, lastn, t) ∧
      lastn.toNat = (if l = 0 then 0 else 5 - (5 - l % 5) % 5) ∧ t.regs.status = s.regs.status := by
  have he := execPadd_eq (s.withRegs { s.regs with len := BitVec.ofNat 32 l })
  have hl : (Regs.length { s.regs with len := BitVec.ofNat 32 l }) = l := by
    simp only [Regs.length, BitVec.toNat_ofNat]
    omega
  have hg : decGroups l = (l + 4) / 5 := by
    unfold decGroups
    split <;> omega
  simp only [State.withRegs_regs, hl] at he
  have h := hostLayout_eq (pad := 0x00000004#32) (i := .padd) (by decide) he
  refine ⟨_, _, h.trans (congrArg (fun g => some (g, _, _)) ?_), ?_, ?_⟩
  · simp only [State.withRegs_regs, Regs.setPadResult, BitVec.toNat_ofNat, hg]
    rw [Nat.mod_eq_of_lt (by omega)]
  · simp only [State.withRegs_regs, Regs.setPadResult, BitVec.toNat_ofNat, decPad]
    split <;> omega
  · rfl

@[simp] theorem CallResult.after_returned (out u : List Byte) :
    (CallResult.returned u).after out = .returned (out ++ u) := rfl

@[simp] theorem CallResult.after_failed (out : List Byte) (st : Word) : (CallResult.failed st).after out = .failed st :=
  rfl

section parts

variable {call : Nat → List Byte → State → Option (CallResult × State)} {p : List Byte} {k : Nat} {s s1 : State}

/-- A part whose call fails fails the whole. -/
theorem callParts_failed {st : Word} (h : call k p s = some (.failed st, s1)) (rest : List (List Byte)) :
    callParts call (p :: rest) k s = some (.failed st, s1) := by
  simp [callParts, h]

/-- A part whose call returns puts its output in front of what the later parts give. -/
theorem callParts_returned {out : List Byte} (h : call k p s = some (.returned out, s1)) {rest : List (List Byte)}
    {r : CallResult} {s2 : State} (hr : callParts call rest (k + 1) s1 = some (r, s2)) :
    callParts call (p :: rest) k s = some (r.after out, s2) := by
  simp [callParts, h, hr]

end parts

/-- The parts of a cut, joined, are the list. -/
theorem cutEvery_flatten (n fuel : Nat) (l : List Byte) : (cutEvery n fuel l).flatten = l := by
  induction fuel generalizing l with
  | zero => simp [cutEvery]
  | succ fuel ih =>
    unfold cutEvery
    split
    · simp
    · rw [List.flatten_cons, ih, List.take_append_drop]

theorem cutEvery_ne_nil (n fuel : Nat) (l : List Byte) : cutEvery n fuel l ≠ [] := by
  cases fuel with
  | zero => simp [cutEvery]
  | succ fuel =>
    unfold cutEvery
    split <;> simp

/-- With fuel for its length, a cut at a positive multiple of `k` below 2^32 is a legal split. -/
theorem cutEvery_splitLegal (k n fuel : Nat) (l : List Byte) (hk : n % k = 0) (h0 : 0 < n) (hn : n < 2 ^ 32)
    (hf : l.length ≤ fuel) : splitLegal k (cutEvery n fuel l) := by
  induction fuel generalizing l with
  | zero =>
    have : l = [] := List.eq_nil_of_length_eq_zero (by omega)
    subst this
    exact ⟨by simp [cutEvery], by simp [cutEvery]⟩
  | succ fuel ih =>
    unfold cutEvery
    split
    · exact ⟨by simp; omega, by simp⟩
    · have hl : (l.take n).length = n := by
        rw [List.length_take]
        omega
      obtain ⟨h1, h2⟩ := ih (l.drop n) (by rw [List.length_drop]; omega)
      constructor
      · intro p hp
        rcases List.mem_cons.mp hp with rfl | hp
        · omega
        · exact h1 p hp
      · intro p hp
        rw [List.dropLast_cons_of_ne_nil (cutEvery_ne_nil n fuel _)] at hp
        rcases List.mem_cons.mp hp with rfl | hp
        · rw [hl, hk]
        · exact h2 p hp

end Sys2Proof.Machine
end

