-- ==== Sys2Proof/Laws/Document.lean ====
section
/-! SUPPORT. The document's functions, one group at a time (spec/45_buffer_protocol.md R261, R264). -/

namespace Sys2Proof.Machine

theorem documentEncPad_eq (l : Nat) : documentEncPad l = (4 - l % 4) % 4 := by
  unfold documentEncPad
  omega

theorem documentDecPad_eq (m : Nat) : documentDecPad m = (5 - m % 5) % 5 := by
  unfold documentDecPad
  omega

@[simp] theorem documentChars_length (n : Nat) : (documentChars n).length = 5 := rfl

@[simp] theorem documentBytes_length (n : Nat) : (documentBytes n).length = 4 := rfl

/-- `documentEncodeGroups` gives five characters for each whole group. -/
theorem documentEncodeGroups_length : ∀ b : List Byte, (documentEncodeGroups b).length = 5 * (b.length / 4)
  | [] | [_] | [_, _] | [_, _, _] => by simp [documentEncodeGroups]
  | b0 :: b1 :: b2 :: b3 :: rest => by
    simp only [documentEncodeGroups, List.length_append, documentChars_length, documentEncodeGroups_length rest,
      List.length_cons]
    omega

/-- `documentDecodeGroups` gives four bytes for each whole group. -/
theorem documentDecodeGroups_length : ∀ x : List Byte, (documentDecodeGroups x).length = 4 * (x.length / 5)
  | [] | [_] | [_, _] | [_, _, _] | [_, _, _, _] => by simp [documentDecodeGroups]
  | c0 :: c1 :: c2 :: c3 :: c4 :: rest => by
    simp only [documentDecodeGroups, List.length_append, documentBytes_length, documentDecodeGroups_length rest,
      List.length_cons]
    omega

/-- The group word of the first four bytes, zero-filled. -/
def firstWord (b : List Byte) : Nat :=
  2 ^ 24 * (b.getD 0 0#8).toNat + 2 ^ 16 * (b.getD 1 0#8).toNat + 2 ^ 8 * (b.getD 2 0#8).toNat + (b.getD 3 0#8).toNat

/-- `encode` of a buffer with a byte in it: the kept characters of its first group, then `encode` of the rest. -/
theorem documentEncode_eq (b : List Byte) (h : b ≠ []) :
    documentEncode b = (documentChars (firstWord b)).take (min b.length 4 + 1) ++ documentEncode (b.drop 4) := by
  match b with
  | [b0] => rfl
  | [b0, b1] => rfl
  | [b0, b1, b2] => rfl
  | b0 :: b1 :: b2 :: b3 :: rest =>
    have hp : documentEncPad (rest.length + 1 + 1 + 1 + 1) = documentEncPad rest.length := by
      simp only [documentEncPad_eq]
      omega
    have hl := documentEncodeGroups_length (rest ++ List.replicate (documentEncPad rest.length) 0#8)
    simp only [List.length_append, List.length_replicate] at hl
    have hpad := documentEncPad_eq rest.length
    simp only [documentEncode, List.length_cons, hp, List.cons_append, documentEncodeGroups, withoutLast,
      List.length_append, documentChars_length, firstWord, List.getD_cons_zero, List.getD_cons_succ,
      List.drop_succ_cons, List.drop_zero]
    rw [List.take_append, documentChars_length, List.take_of_length_le (i := min _ 4 + 1) (by simp),
      List.take_of_length_le (by simp; omega)]
    congr 2
    omega

/-- The value of the first five characters, padded with the character of value 84. -/
def firstValue (x : List Byte) : Nat :=
  85 ^ 4 * documentInverse (x.getD 0 padChar) + 85 ^ 3 * documentInverse (x.getD 1 padChar) +
    85 ^ 2 * documentInverse (x.getD 2 padChar) + 85 * documentInverse (x.getD 3 padChar) +
    documentInverse (x.getD 4 padChar)

theorem alpha_84 : alpha 84 = padChar := rfl

theorem inAlphabet_padChar : inAlphabet padChar = true := by decide

/-- `decode` of a string with a character in it: none where one of its first five characters is outside the
alphabet, else the kept bytes of its first group, then `decode` of the rest. -/
theorem documentDecode_eq (x : List Byte) (h : x ≠ []) :
    documentDecode x = if (x.take 5).all inAlphabet then
      (documentDecode (x.drop 5)).map ((documentBytes (firstValue x)).take (min x.length 5 - 1) ++ ·) else none := by
  match x with
  | [c0] =>
    simp [documentDecode, alpha_84, inAlphabet_padChar, documentDecPad, withoutLast,
      documentDecodeGroups, firstValue]
  | [c0, c1] =>
    simp [documentDecode, alpha_84, inAlphabet_padChar, documentDecPad, withoutLast,
      documentDecodeGroups, firstValue]
  | [c0, c1, c2] =>
    simp [documentDecode, alpha_84, inAlphabet_padChar, documentDecPad, withoutLast,
      documentDecodeGroups, firstValue]
  | [c0, c1, c2, c3] =>
    simp [documentDecode, alpha_84, inAlphabet_padChar, documentDecPad, withoutLast,
      documentDecodeGroups, firstValue]
  | c0 :: c1 :: c2 :: c3 :: c4 :: rest =>
    have hp : documentDecPad (rest.length + 1 + 1 + 1 + 1 + 1) = documentDecPad rest.length := by
      simp only [documentDecPad_eq]
      omega
    have hl := documentDecodeGroups_length (rest ++ List.replicate (documentDecPad rest.length) (alpha 84))
    simp only [List.length_append, List.length_replicate] at hl
    have hpad := documentDecPad_eq rest.length
    simp only [documentDecode, List.length_cons, hp, List.cons_append, documentDecodeGroups, withoutLast,
      List.length_append, documentBytes_length, firstValue, List.getD_cons_zero, List.getD_cons_succ,
      List.drop_succ_cons, List.drop_zero, List.take_succ_cons, List.take_zero, List.all_cons, List.all_nil]
    rw [List.take_append, documentBytes_length, List.take_of_length_le (i := min _ 5 - 1) (by simp),
      List.take_of_length_le (by simp; omega)]
    rw [show ∀ l : Nat, 4 + l - documentDecPad rest.length - 4 = l - documentDecPad rest.length from by omega]
    cases inAlphabet c0 <;> cases inAlphabet c1 <;> cases inAlphabet c2 <;> cases inAlphabet c3 <;>
      cases inAlphabet c4 <;> simp

/-- `encode` of a buffer split at a multiple of four bytes: the groups are independent (R261, N14). -/
theorem documentEncode_append : ∀ p q : List Byte, p.length % 4 = 0 →
    documentEncode (p ++ q) = documentEncode p ++ documentEncode q
  | [], _, _ => rfl
  | [_], _, h | [_, _], _, h | [_, _, _], _, h => by simp at h
  | b0 :: b1 :: b2 :: b3 :: rest, q, h => by
    have ih := documentEncode_append rest q (by simp at h; omega)
    have hw : firstWord (b0 :: b1 :: b2 :: b3 :: (rest ++ q)) = firstWord (b0 :: b1 :: b2 :: b3 :: rest) := rfl
    have hmin : ∀ l : List Byte, min (b0 :: b1 :: b2 :: b3 :: l).length 4 = 4 := fun l => by simp
    rw [show (b0 :: b1 :: b2 :: b3 :: rest) ++ q = b0 :: b1 :: b2 :: b3 :: (rest ++ q) from rfl,
      documentEncode_eq _ (by simp), documentEncode_eq (b0 :: b1 :: b2 :: b3 :: rest) (by simp), hw, hmin, hmin]
    simp only [List.drop_succ_cons, List.drop_zero, ih, List.append_assoc]

/-- `decode` of a string split at a multiple of five characters: defined where both parts are (R264, N14). -/
theorem documentDecode_append : ∀ p q : List Byte, p.length % 5 = 0 →
    documentDecode (p ++ q) = (documentDecode p).bind (fun b => (documentDecode q).map (b ++ ·))
  | [], q, _ => by simp [documentDecode, documentDecPad, withoutLast, documentDecodeGroups]
  | [_], _, h | [_, _], _, h | [_, _, _], _, h | [_, _, _, _], _, h => by simp at h
  | c0 :: c1 :: c2 :: c3 :: c4 :: rest, q, h => by
    have ih := documentDecode_append rest q (by simp at h; omega)
    have hv : firstValue (c0 :: c1 :: c2 :: c3 :: c4 :: (rest ++ q)) =
      firstValue (c0 :: c1 :: c2 :: c3 :: c4 :: rest) := rfl
    have hmin : ∀ l : List Byte, min (c0 :: c1 :: c2 :: c3 :: c4 :: l).length 5 = 5 := fun l => by simp
    rw [show (c0 :: c1 :: c2 :: c3 :: c4 :: rest) ++ q = c0 :: c1 :: c2 :: c3 :: c4 :: (rest ++ q) from rfl,
      documentDecode_eq _ (by simp), documentDecode_eq (c0 :: c1 :: c2 :: c3 :: c4 :: rest) (by simp), hv, hmin, hmin]
    simp only [List.take_succ_cons, List.take_zero, List.drop_succ_cons, List.drop_zero, ih]
    split
    · cases documentDecode rest <;> cases documentDecode q <;> simp
    · rfl

end Sys2Proof.Machine
end

