-- ==== Sys2Proof/Laws/PerInstr.lean ====
section
/-! SUPPORT. Per command: the encoder's word is a word of the command's row in spec/opcode_table.json. -/

namespace Sys2Proof.Laws.TableRow

/-- The mask of a command's row: CNT is free in the rows of `ENC` and `DEC`, every other bit is fixed. -/
def rowMask : Instr → Word
  | .nop => 0xFFFFFFFF#32
  | .enc _ => 0xFFFFFF8F#32
  | .dec _ => 0xFFFFFF8F#32
  | .pade => 0xFFFFFFFF#32
  | .padd => 0xFFFFFFFF#32
  | .alook => 0xFFFFFFFF#32
  | .ilook => 0xFFFFFFFF#32
  | .srst => 0xFFFFFFFF#32

/-- The fixed bits of a command's row. -/
def rowMatch : Instr → Word
  | .nop => 0x00000000#32
  | .enc _ => 0x00000001#32
  | .dec _ => 0x00000002#32
  | .pade => 0x00000003#32
  | .padd => 0x00000004#32
  | .alook => 0x00000005#32
  | .ilook => 0x00000006#32
  | .srst => 0x00000007#32

/-- The encoder's word of a command stands in the command's row, its count in bits 6..4. -/
def Statement (i : Instr) : Prop := encode i &&& rowMask i = rowMatch i ∧ cntField (encode i) = cntOf i

theorem nop : Statement .nop := by unfold Statement; decide

theorem enc (nb : BitVec 3) : Statement (.enc nb) := by
  unfold Statement
  revert nb
  decide

theorem dec (nc : BitVec 3) : Statement (.dec nc) := by
  unfold Statement
  revert nc
  decide

theorem pade : Statement .pade := by unfold Statement; decide

theorem padd : Statement .padd := by unfold Statement; decide

theorem alook : Statement .alook := by unfold Statement; decide

theorem ilook : Statement .ilook := by unfold Statement; decide

theorem srst : Statement .srst := by unfold Statement; decide

end Sys2Proof.Laws.TableRow
end

