-- ==== Sys2Proof/Tests/Slice0.lean ====
section
/-! SUPPORT. Tests of one step each, with values from spec/95_test_vectors.md (V<n>, S<n>) or from the rules, and for
each obligation with hypotheses a witness that meets them. -/

open Sys2Proof Sys2Proof.Machine Sys2Proof.Claims

namespace Sys2Proof.Tests

set_option Elab.async false

/-- The state with the given registers and accesses to come. -/
def machine (r : Regs) (pending : List BusEvent) : State := { State.reset with regs := r, pending := pending }

/-- The next state of an outcome, where there is one. -/
def nextOf : Host.Outcome State Fault Refusal → Option State
  | .next s => some s
  | .fault _ => none
  | .refused _ => none

/-- The fault of an outcome, where there is one. -/
def faultOf : Host.Outcome State Fault Refusal → Option Fault
  | .next _ => none
  | .fault f => some f
  | .refused _ => none

/-- What reads of some registers return after a command on the given registers. -/
def readsAfter (i : Instr) (r : Regs) (regs : List Reg) : Option (List Word) :=
  (nextOf (exec i (machine r []))).map (fun t => regs.map t.regs.readReg)

/-- Reset registers with a word, five characters, a length, or a lookup operand. -/
def wordRegs (w : Word) : Regs := { Regs.reset with word := w }
def charRegs (cha : Word) (chb : Byte) : Regs := { Regs.reset with cha := cha, chb := chb }
def lenRegs (l : Word) : Regs := { Regs.reset with len := l }
def lutRegs (b : Byte) : Regs := { Regs.reset with lutin := b }

/-- Every flag set, ERRIDX = 3: STATUS = 0x8000031D (V6 row 7). -/
def flaggedRegs : Regs := { Regs.reset with status := ⟨true, true, true, true, 3#3⟩ }

/-! ### Well-formedness: a term that each check refuses -/

theorem test_wf_enc_zero_refused : ¬ (Instr.enc 0).WellFormed := by decide
theorem test_wf_enc_five_refused : ¬ (Instr.enc 5).WellFormed := by decide
theorem test_wf_dec_zero_refused : ¬ (Instr.dec 0).WellFormed := by decide
theorem test_wf_dec_six_refused : ¬ (Instr.dec 6).WellFormed := by decide
theorem test_wf_others :
    [Instr.nop, .enc 1, .enc 4, .dec 1, .dec 5, .pade, .padd, .alook, .ilook, .srst].all Instr.wellFormed = true := by
  decide

/-! ### Decoding: words written out from R90 and R94 as RSV, CNT, OP -/

theorem test_decode_nop : decode (0b0000000000000000000000000_000_0000#32) = .ok .nop := by decide
theorem test_decode_enc : decode (0b0000000000000000000000000_011_0001#32) = .ok (.enc 3) := by decide
theorem test_decode_dec : decode (0b0000000000000000000000000_101_0010#32) = .ok (.dec 5) := by decide
theorem test_decode_pade : decode (0b0000000000000000000000000_000_0011#32) = .ok .pade := by decide
theorem test_decode_padd : decode (0b0000000000000000000000000_000_0100#32) = .ok .padd := by decide
theorem test_decode_alook : decode (0b0000000000000000000000000_000_0101#32) = .ok .alook := by decide
theorem test_decode_ilook : decode (0b0000000000000000000000000_000_0110#32) = .ok .ilook := by decide
theorem test_decode_srst : decode (0b0000000000000000000000000_000_0111#32) = .ok .srst := by decide

/-- V5 rows 2 to 6 and 9 to 13: none of these words decodes. -/
theorem test_decode_illegal :
    [0x10, 0x01, 0x51, 0x02, 0x62, 0x08, 0x0F, 0x13, 0x17, 0x81, 0x80000041].all
      (fun w => (decode (BitVec.ofNat 32 w)).toOption.isNone) = true := by decide

theorem test_encode_words :
    [Instr.nop, .enc 2, .dec 5, .pade, .padd, .alook, .ilook, .srst].map encode =
      [0x00, 0x21, 0x52, 0x03, 0x04, 0x05, 0x06, 0x07] := by decide

theorem test_decodeTableWord : decodeTableWord 32 0x31 = some (.enc 3) ∧ decodeTableWord 32 0x01 = none := by decide

theorem test_withFetchWord_runs :
    (nextOf (step (State.reset.withFetchWord 32 0x41))).map (fun t => (t.regs.keep, t.regs.cha, t.pc)) =
      some (5, 0x23232323, 1) := by decide +kernel

/-! ### The commands -/

theorem test_nop : nextOf (exec .nop (machine flaggedRegs [])) = some (machine flaggedRegs []) := by decide

/-- V2 row 2: the largest word. -/
theorem test_enc_largest :
    readsAfter (.enc 4) (wordRegs 0xFFFFFFFF) [.word, .cha, .chb, .diga, .digb, .keep] =
      some [0xFFFFFFFF, 0x7B3E5E33, 0x23, 0x5217360C, 0x00, 5] := by decide +kernel

/-- V2 row 4: the zero fill. -/
theorem test_enc_zero_fill :
    readsAfter (.enc 1) (wordRegs 0x41FFFFFF) [.word, .cha, .chb, .diga, .digb, .keep, .status] =
      some [0x41000000, 0x3B746674, 0x6A, 0x144B3D4B, 0x41, 2, 0] := by decide +kernel

/-- V3 row 14: the padding characters are written back, whatever stood there. -/
theorem test_dec_pads :
    readsAfter (.dec 2) (charRegs 0x3B7400FF 0x21) [.word, .cha, .chb, .diga, .digb, .keep, .status] =
      some [0x41028C2F, 0x3B747D7D, 0x7D, 0x144B5454, 0x54, 1, 0] := by decide +kernel

/-- V3 rows 3 and 7: the least wide value; the lowest invalid lane. -/
theorem test_dec_wide_and_invalid :
    readsAfter (.dec 5) (charRegs 0x7B3E5E33 0x24) [.word, .keep, .status] = some [0, 4, 0x10] ∧
      readsAfter (.dec 5) (charRegs 0x23232123 0x23) [.word, .cha, .keep, .status] =
        some [0, 0x23232123, 0, 0x80000201] := by decide +kernel

/-- V4 rows 7, 8 and 11. -/
theorem test_pade :
    readsAfter .pade (lenRegs 0xCCCCCCCC) [.padinfo, .groups, .outlen] = some [0x040, 0x33333333, 0xFFFFFFFF] ∧
      readsAfter .pade (lenRegs 0xCCCCCCCD) [.padinfo, .groups, .outlen] = some [0x113, 0x33333334, 1] ∧
      readsAfter .pade (lenRegs 0xFFFFFFFF) [.padinfo, .groups, .outlen] = some [0x131, 0x40000000, 0x3FFFFFFF] := by
  decide +kernel

/-- V4 rows 13 and 20. -/
theorem test_padd :
    readsAfter .padd (lenRegs 1) [.padinfo, .groups, .outlen] = some [0x014, 1, 0] ∧
      readsAfter .padd (lenRegs 0xFFFFFFFF) [.padinfo, .groups, .outlen] = some [0x050, 0x33333333, 0xCCCCCCCC] := by
  decide +kernel

/-- V1 rows 3 and 4. -/
theorem test_alook :
    readsAfter .alook (lutRegs 84) [.lutout, .status] = some [0x17D, 0] ∧
      readsAfter .alook (lutRegs 85) [.lutout, .status] = some [0, 0x80000008] := by decide +kernel

/-- V1 rows 8 and 11. -/
theorem test_ilook :
    readsAfter .ilook (lutRegs 0x41) [.lutout, .status] = some [0x11A, 0] ∧
      readsAfter .ilook (lutRegs 0x5C) [.lutout, .status] = some [0, 0x80000001] := by decide +kernel

theorem test_srst : readsAfter .srst flaggedRegs Reg.all = some (0x4C583835 :: List.replicate 14 0) := by decide +kernel

/-! ### The bus -/

/-- V6 row 7. -/
theorem test_status_write_one_to_clear :
    (nextOf (memWrite 0x08 4 0xFFFFFFFF (machine flaggedRegs []))).map (fun t => t.regs.readReg .status) =
      some 0x00000300 := by decide

/-- V6 rows 4 and 6. -/
theorem test_reserved_and_read_only :
    (nextOf (memWrite 0x14 4 0xFFFFFF41 State.reset)).map (fun t => t.regs.readReg .chb) = some 0x41 ∧
      nextOf (memWrite 0x20 4 5 State.reset) = some State.reset := by decide

/-- V6 rows 8 to 11. -/
theorem test_bus_errors :
    faultOf (step (machine Regs.reset [.read 0x3C 4])) = some (.busError 0x3C 4) ∧
      faultOf (step (machine Regs.reset [.write 0x0E 4 1])) = some (.busError 0x0E 4) ∧
      faultOf (step (machine Regs.reset [.read 0x0C 2])) = some (.busError 0x0C 2) ∧
      faultOf (step (machine Regs.reset [.write 0x04 1 0x11])) = some (.busError 0x04 1) := by decide

/-- R64: the host goes on, a faulting read returns 0. -/
theorem test_host_goes_on :
    (nextOf (hostStep (machine Regs.reset [.read 0x3C 4, .read 0x00 4]))).map
      (fun t => (t.responses.map Response.data, t.pending, t.pc)) = some ([some 0], [.read 0x00 4], 1) := by decide

theorem test_hardware_reset :
    (nextOf (step (machine flaggedRegs [.hardReset]))).map (fun t => (t.regs, t.pc)) = some (Regs.reset, 0) := by decide

theorem test_offsetAt : offsetAt 0x40000000 0x40000038 = some 0x38 ∧ offsetAt 0x40000000 0x40000040 = none := by decide

theorem test_assembler :
    (parseLine "WR CHA, 0x3B740000 ; lanes 0, 1".toList).bind AsmLine.assemble = some [.write 0x10 4 0x3B740000] ∧
      (parseLine "DEC 2".toList).bind AsmLine.assemble = some [.write 0x04 4 0x22] := by decide

/-- S5, S6, R263: a host that splits the string, and one that stops at the first error. -/
theorem test_host_procedures :
    (decodeParts (fun _ _ => 0) [[0x23, 0x42, 0x54, 0x45, 0x31], [0x24, 0x5A]] State.reset).map (·.1) =
        some (.returned [1, 2, 3, 4, 5]) ∧
      (decodeBufferChecked (fun _ => 0) [0x23, 0x21] State.reset).map (·.1) = some (.failed 0x80000101) := by
  decide +kernel

/-! ### Witnesses: states and operands that meet the hypotheses of each obligation that has some, a boundary value
for each clause -/

/-- Registers whose lookup operand, characters and flags are the given ones. -/
def busyRegs : Regs := { flaggedRegs with word := 0x12345678, cha := 0x2371425D, chb := 0x70, lutin := 0x54, len := 6 }

theorem witness_DecodeInvertsEncode :
    (Instr.enc 1).WellFormed ∧ (Instr.enc 4).WellFormed ∧ (Instr.dec 1).WellFormed ∧ (Instr.dec 5).WellFormed ∧
      decode 0x41 = .ok (.enc 4) ∧ ¬ (Instr.enc 5).WellFormed ∧ ¬ (Instr.dec 0).WellFormed := by decide

theorem witness_CommandWriteDispatches_illegal :
    ¬ commandLegal 0x51 ∧ ¬ commandLegal 0x01 ∧ ¬ commandLegal 0x62 ∧ ¬ commandLegal 0x08 ∧
      ¬ commandLegal 0x0F ∧ ¬ commandLegal 0x10 ∧ ¬ commandLegal 0x80 := by
  refine ⟨?_, ?_, ?_, ?_, ?_, ?_, ?_⟩ <;> (unfold commandLegal; decide)

theorem witness_CommandWriteDispatches_legal :
    commandLegal 0x00 ∧ commandLegal 0x11 ∧ commandLegal 0x41 ∧ commandLegal 0x12 ∧ commandLegal 0x52 ∧
      commandLegal 0x03 ∧ commandLegal 0x04 ∧ commandLegal 0x05 ∧ commandLegal 0x06 ∧ commandLegal 0x07 := by
  refine ⟨?_, ?_, ?_, ?_, ?_, ?_, ?_, ?_, ?_, ?_⟩ <;> (unfold commandLegal; decide)

theorem witness_IllegalWordSetsOnlyIllcmd :
    (machine busyRegs [.write 0x04 4 0x51]).pending = .write 0x04 4 0x51 :: [] ∧ ¬ commandLegal 0x51 := by
  unfold commandLegal
  decide

theorem witness_StepRunsDecodedCommand :
    (machine busyRegs [.write 0x04 4 0x41, .read 0x20 4]).pending = .write 0x04 4 0x41 :: [.read 0x20 4] ∧
      decode 0x41 = .ok (.enc 4) ∧ (machine busyRegs [.write 0x0C 4 7]).pending = .write 0x0C 4 7 :: [] ∧
      ¬ accessIllFormed 0x0C 4 ∧ ¬ accessIllFormed 0x00 4 ∧ ¬ accessIllFormed 0x38 4 := by
  unfold accessIllFormed
  decide

theorem witness_ReadReturnsRegisterTable :
    (accessIllFormed 0x3C 4 ∧ accessIllFormed 0x00 1 ∧ accessIllFormed 0x3A 4) ∧
      ¬ accessIllFormed 0x00 4 ∧ ¬ accessIllFormed 0x38 4 := by
  unfold accessIllFormed
  decide

theorem witness_ReadStepHasNoSideEffect :
    (machine busyRegs [.read 0x08 4]).pending = .read 0x08 4 :: [] ∧ ¬ accessIllFormed 0x08 4 := by
  unfold accessIllFormed
  decide

/-- Each clause of `WriteFollowsRegisterTable` has one offset, and no two clauses share one. -/
theorem witness_WriteFollowsRegisterTable :
    accessIllFormed 0x3C 4 ∧ accessIllFormed 0x04 2 ∧ accessIllFormed 0x03 4 ∧
      (∀ a ∈ ([0x04, 0x08, 0x0C, 0x10, 0x14, 0x24, 0x34] : List Offset), ¬ accessIllFormed a 4) ∧
      (∀ a ∈ ([0x00, 0x18, 0x1C, 0x20, 0x28, 0x2C, 0x30, 0x38] : List Offset), ¬ accessIllFormed a 4 ∧
        a ∉ ([0x04, 0x08, 0x0C, 0x10, 0x14, 0x24, 0x34] : List Offset)) := by
  unfold accessIllFormed
  decide

theorem witness_StepFaultsExactlyOnBusError :
    accessIllFormed 0x0C 2 ∧ (machine busyRegs [.read 0x0C 2]).pending = .read 0x0C 2 :: [] ∧
      accessIllFormed 0x0E 4 ∧ (machine busyRegs [.write 0x0E 4 1]).pending = .write 0x0E 4 1 :: [] := by
  unfold accessIllFormed
  decide

theorem witness_HostGoesOnAfterBusError :
    accessIllFormed 0x3C 4 ∧ (machine busyRegs [.read 0x3C 4]).pending = .read 0x3C 4 :: [] ∧
      (machine busyRegs [.write 0x3C 4 7]).pending = .write 0x3C 4 7 :: [] ∧
      faultOf (step (machine busyRegs [.write 0x38 4 7])) = none := by
  unfold accessIllFormed
  decide

theorem witness_OnlyOffset3CIsUnmapped :
    (0x3C : Offset).toNat % 4 = 0 ∧ (0x38 : Offset).toNat % 4 = 0 ∧ (0x38 : Offset) ≠ 0x3C ∧
      (0x00 : Offset).toNat % 4 = 0 := by decide

theorem witness_ReadOnlyRegistersIgnoreWrites :
    readOnlyReg .id ∧ readOnlyReg .lutout ∧ busyRegs.status.flag .wide = true := by
  unfold readOnlyReg
  decide

theorem witness_ReservedBitsReadZeroAndIgnoreWrites :
    Reg.chb ≠ .cmd ∧ (0x00000080 : Word) &&& 0xFFFFFF80 ≠ 0 ∧ (0x80000041 : Word) &&& 0xFFFFFF80 ≠ 0 := by decide

theorem witness_OperandWriteIsReadBack : operandReg .word ∧ operandReg .lutin ∧ Reg.cha ≠ .word := by
  unfold operandReg
  decide

theorem witness_RegisterWritesAreIdempotent : operandReg .chb ∧ (operandReg .status ∨ Reg.status = .status) := by
  unfold operandReg
  decide

theorem witness_EachAccessAdvancesPcByOne :
    (machine busyRegs [.read 0x08 4]).pending = .read 0x08 4 :: [] ∧
      (nextOf (step (machine busyRegs [.read 0x08 4]))).isSome ∧
      (machine busyRegs [.hardReset]).pending = .hardReset :: [] ∧
      (nextOf (step (machine busyRegs [.hardReset]))).isSome := by decide

theorem witness_BlockHoldsAfterLastAccess : (machine busyRegs []).pending = [] := by decide

theorem witness_RegisterSpaceIsSixtyFourBytes :
    (0x1000 + 0x3F : Nat) = 0x1000 + (0x3F : Offset).toNat ∧ 0x0FFF < 0x1000 ∧ 0x1000 + 64 ≤ 0x1040 := by decide

theorem witness_CommandsNeverClearAFlag : Instr.dec 5 ≠ .srst ∧ busyRegs.status.flag .illcmd = true := by decide

/-- A command that is not `SRST`, with two values of STATUS that differ. -/
theorem witness_NoCommandReadsStatus : Instr.dec 5 ≠ .srst ∧ busyRegs.status ≠ Regs.reset.status := by decide

/-- A bus error, an illegal word, and an access of each other cause. -/
theorem witness_OneCausePerAccess :
    eventCause (.read 0x3C 4) busyRegs = .busError ∧ eventCause (.write 0x04 4 0x51) busyRegs = .illegalCommand ∧
      eventCause (.write 0x04 4 0x52) Regs.reset = .invalidCharacter ∧
      eventCause (.write 0x04 4 0x05) (lutRegs 85) = .range ∧
      eventCause (.write 0x04 4 0x52) (charRegs 0x7D7D7D7D 0x7D) = .wide ∧
      eventCause (.write 0x04 4 0x41) busyRegs = .none ∧ ¬ commandLegal 0x51 := by
  unfold commandLegal
  decide +kernel

/-- Lane 0 is the lowest invalid lane; lanes 0 to 4 all valid. -/
theorem witness_ErridxNamesTheLastInvalidLane :
    ((Instr.dec 1).WellFormed ∧ (0 : Fin 5).val < (1 : BitVec 3).toNat ∧ inAlphabet (Regs.reset.chars.get 0) = false ∧
      ∀ k : Fin 5, k < 0 → inAlphabet (Regs.reset.chars.get k) = true) ∧
      realLanesValid (machine busyRegs []) 5 ∧ Instr.dec 5 ≠ .srst ∧ Reg.status ≠ .cmd ∧ ¬ commandLegal 0x10 ∧
      (machine busyRegs [.hardReset]).pending = .hardReset :: [] := by
  unfold commandLegal realLanesValid
  decide +kernel

/-- The last conjuncts meet the clause on STATUS: `NOP`, and `ENC` with the bounds of its count. -/
theorem witness_CommandsWriteOnlyTheirRegisters :
    (∀ n, Instr.pade ≠ .enc n) ∧ (∀ n, Instr.pade ≠ .dec n) ∧ Instr.pade ≠ .srst ∧ Instr.enc 4 ≠ .pade ∧
      Instr.enc 4 ≠ .padd ∧ Instr.enc 4 ≠ .srst ∧ Instr.dec 1 ≠ .alook ∧ Instr.dec 1 ≠ .ilook ∧
      Instr.dec 1 ≠ .srst ∧ ∀ i ∈ [Instr.nop, .enc 1, .enc 4, .pade, .padd],
        i.WellFormed ∧ (∀ n, i ≠ .dec n) ∧ i ≠ .alook ∧ i ≠ .ilook ∧ i ≠ .srst := by decide

theorem witness_HardwareResetRestoresTheResetState :
    (machine busyRegs [.hardReset, .read 0x08 4]).pending = .hardReset :: [.read 0x08 4] := by decide

theorem witness_InverseRomHoldsTheListedCodes :
    (0x7D : Byte) = alpha 84 ∧ (∀ v : Fin 85, (0x7E : Byte) ≠ alpha v.val) ∧ 83 < 84 := by decide

theorem witness_LookupsAreInverse :
    84 ≤ 84 ∧ inverse 0x23 = ⟨true, 0⟩ ∧ (machine (lutRegs 84) []).regs.lutin.toNat ≤ 84 ∧
      inAlphabet (machine (lutRegs 0x7D) []).regs.lutin = true := by decide

theorem witness_AlookReturnsTheCharacter :
    (machine (lutRegs 84) []).regs.lutin.toNat = 84 ∧ 85 ≤ (machine (lutRegs 85) []).regs.lutin.toNat := by decide

theorem witness_IlookReturnsTheValue :
    alphabet[84]? = some (machine (lutRegs 0x7D) []).regs.lutin ∧ (machine (lutRegs 0x7E) []).regs.lutin ∉ alphabet := by
  decide

/-- The bounds of the count. -/
theorem witness_EncEncodesTheZeroFilledWord :
    1 ≤ (1 : BitVec 3).toNat ∧ (1 : BitVec 3).toNat ≤ 4 ∧ 1 ≤ (4 : BitVec 3).toNat ∧ (4 : BitVec 3).toNat ≤ 4 := by
  decide

theorem witness_CountOutOfRangeSetsIllcmd :
    (0 : BitVec 3).toNat = 0 ∧ 5 ≤ (5 : BitVec 3).toNat ∧ 6 ≤ (6 : BitVec 3).toNat := by decide

/-- The largest word meets the last clause. -/
theorem witness_EncOutputStaysInTheAlphabet :
    1 ≤ (4 : BitVec 3).toNat ∧ (4 : BitVec 3).toNat ≤ 4 ∧
      (nextOf (exec (.enc 4) (machine (wordRegs 0xFFFFFFFF) []))).map (fun t => t.regs.word) = some 0xFFFFFFFF := by
  decide +kernel

theorem witness_ExtractorsGiveTheSameDigits : 0xFFFFFFFF < 2 ^ 32 := by decide

theorem witness_EncIsInjective : (Instr.enc 1).WellFormed ∧ (Instr.enc 4).WellFormed := by decide

/-- One real lane and five, with the characters of `busyRegs` all in the alphabet. -/
theorem witness_DecDecodesThePaddedGroup :
    (1 ≤ (1 : BitVec 3).toNat ∧ (1 : BitVec 3).toNat ≤ 5 ∧ realLanesValid (machine busyRegs []) (1 : BitVec 3).toNat) ∧
      1 ≤ (5 : BitVec 3).toNat ∧ (5 : BitVec 3).toNat ≤ 5 ∧
      realLanesValid (machine busyRegs []) (5 : BitVec 3).toNat := by
  unfold realLanesValid
  decide +kernel

theorem witness_DecValueFitsThirtyThreeBits :
    1 ≤ (5 : BitVec 3).toNat ∧ (5 : BitVec 3).toNat ≤ 5 ∧
      realLanesValid (machine (charRegs 0x7D7D7D7D 0x7D) []) (5 : BitVec 3).toNat := by
  unfold realLanesValid
  decide +kernel

/-- V3 row 7: lane 2 is the lowest invalid lane. -/
theorem witness_DecReportsTheLowestInvalidLane :
    1 ≤ (5 : BitVec 3).toNat ∧ (5 : BitVec 3).toNat ≤ 5 ∧ (2 : Fin 5).val < (5 : BitVec 3).toNat ∧
      inAlphabet ((charRegs 0x23232123 0x23).chars.get 2) = false ∧
      ∀ j : Fin 5, j < 2 → inAlphabet ((charRegs 0x23232123 0x23).chars.get j) = true := by decide +kernel

/-- Two real lanes agree, the others differ; both a valid and an invalid group. -/
theorem witness_DecIgnoresThePaddingLanes :
    (1 ≤ (2 : BitVec 3).toNat ∧ (2 : BitVec 3).toNat ≤ 5) ∧
      (∀ i : Fin 5, i.val < (2 : BitVec 3).toNat →
        (charRegs 0x3B74FFFF 0x21).chars.get i = (charRegs 0x3B740000 0).chars.get i) ∧
      realLanesValid (machine (charRegs 0x3B740000 0) []) (2 : BitVec 3).toNat ∧
      ¬ realLanesValid (machine (charRegs 0x3B000000 0) []) (2 : BitVec 3).toNat := by
  unfold realLanesValid
  decide +kernel

theorem witness_OneCharacterGroupKeepsNoByte :
    inAlphabet (Regs.reset.chars.get 0) = false ∧ (Instr.enc 1).WellFormed := by decide

/-- The kept characters of `ENC 1` of 0x41000000, with other lanes changed (S4). -/
theorem witness_DecRecoversTheEncodedBytes :
    (Instr.enc 1).WellFormed ∧ ((nextOf (exec (.enc 1) (machine (wordRegs 0x41000000) []))).map (fun t =>
      decide (∀ i : Fin 5, i.val < (1 : BitVec 3).toNat + 1 →
        (charRegs 0x3B740021 0).chars.get i = t.regs.chars.get i))) = some true := by decide +kernel

/-- The five characters of `ENC 4` of 0x01020304 (S5): the last clause of `DecRecoversTheEncodedBytes`. -/
theorem witness_DecRecoversTheEncodedBytes_four :
    (Instr.enc 4).WellFormed ∧ ((nextOf (exec (.enc 4) (machine (wordRegs 0x01020304) []))).map (fun t =>
      decide (∀ i : Fin 5, i.val < (4 : BitVec 3).toNat + 1 →
        (charRegs 0x23425445 0x31).chars.get i = t.regs.chars.get i))) = some true := by decide +kernel

theorem witness_PadeComputesTheEncodedLength :
    (machine (lenRegs 0xCCCCCCCD) []).regs.len.toNat = 0xCCCCCCCD ∧ (machine (lenRegs 0) []).regs.len.toNat = 0 := by
  decide

theorem witness_PaddComputesTheDecodedLength :
    (machine (lenRegs 0xFFFFFFFF) []).regs.len.toNat = 0xFFFFFFFF ∧ (machine (lenRegs 0) []).regs.len.toNat = 0 := by
  decide

theorem witness_PaddPadIsOfTheUnsignedLength : (machine (lenRegs 1) []).regs.len ≠ 0 := by decide

/-- `PADE` of 5 gives the length 7 (S6). -/
theorem witness_PaddUndoesPade :
    (nextOf (exec .pade (machine (lenRegs 5) []))).map (fun t => t.regs.outlen33) =
      some (machine (lenRegs 7) []).regs.len.toNat := by decide +kernel

theorem witness_RemainderOneIsNoEncodedLength : (machine (lenRegs 6) []).regs.len.toNat % 5 = 1 := by decide

/-- A state that no reset gives meets the invariant, and its step answers a next state. -/
theorem witness_StepKeepsTheInvariant :
    Inv (machine { busyRegs with status := ⟨true, true, true, true, 4⟩ } [.write 0x04 4 0x03]) ∧
      (nextOf (step (machine { busyRegs with status := ⟨true, true, true, true, 4⟩ } [.write 0x04 4 0x03]))).isSome := by
  decide +kernel

/-- For `EncodeBufferComputesEncode`, `DecodeBufferComputesDecode`, `EncodedLengthFormula` and
`BuffersStayInTheAlphabet`: clean flags with WIDE set, a string that decodes and one that does not. -/
theorem witness_buffers :
    (List.replicate 5 (0x41 : Byte)).length < 2 ^ 32 ∧
      ({ Regs.reset with status := ⟨false, false, false, true, 2⟩ } : Regs).flagsClear ∧
      documentDecode [0x3B, 0x74] = some [0x41] ∧ documentDecode [0x23, 0x21] = none ∧ (0x21 : Byte) ∉ alphabet := by
  decide +kernel

/-- A split of a buffer and splits of a string that decodes and of one that does not (N14). -/
theorem witness_splits :
    splitLegal 4 [[1, 2, 3, 4], [5]] ∧ splitLegal 5 [[0x23, 0x42, 0x54, 0x45, 0x31], [0x24, 0x5A]] ∧
      documentDecode [[0x23, 0x42, 0x54, 0x45, 0x31], [0x24, 0x5A]].flatten = some [1, 2, 3, 4, 5] ∧
      splitLegal 5 [[0x23, 0x42, 0x54, 0x45, 0x31], [0x21]] ∧
      documentDecode [[0x23, 0x42, 0x54, 0x45, 0x31], [0x21]].flatten = none := by decide +kernel

theorem witness_StaleErrorFlagFailsTheCall :
    ([0x41] : List Byte).length < 2 ^ 32 ∧ (machine flaggedRegs []).regs.status.err = true := by decide

theorem witness_RoundTripReturnsTheBuffer :
    ([1, 2, 3, 4, 5] : List Byte).length < 2 ^ 32 ∧ Regs.reset.flagsClear ∧
      documentEncode [1, 2, 3, 4, 5] = [0x23, 0x42, 0x54, 0x45, 0x31, 0x24, 0x5A] ∧
      (documentEncode [1, 2, 3, 4, 5]).length < 2 ^ 32 ∧
      [[0x23, 0x42, 0x54, 0x45, 0x31], [0x24, 0x5A]].flatten = documentEncode [1, 2, 3, 4, 5] ∧
      splitLegal 5 [[0x23, 0x42, 0x54, 0x45, 0x31], [0x24, 0x5A]] := by decide +kernel

theorem witness_PseudoInstructionsExpand :
    (1 ≤ (4 : BitVec 3).toNat ∧ (4 : BitVec 3).toNat ≤ 4) ∧ ¬ (1 ≤ (5 : BitVec 3).toNat ∧ (5 : BitVec 3).toNat ≤ 4) := by
  decide

end Sys2Proof.Tests
end

section
/-! PROOFS. The registers, the run and STATUS (spec/10_state.md): what each command leaves, said once as a relation
on the registers, and the statements about state that follow from it. -/

namespace Sys2Proof.Machine

open Sys2Proof.Claims

/-! ### What a command does to the registers -/

/-- `Effect r i r'`: the command `i` run on the registers `r` leaves `r'`, one constructor for each branch of the
commands' meanings. -/
inductive Effect (r : Regs) : Instr → Regs → Prop where
  | nop : Effect r .nop r
  | enc {nb : BitVec 3} (h : 1 ≤ nb.toNat ∧ nb.toNat ≤ 4) : Effect r (.enc nb) (r.afterEnc nb.toNat)
  | encIllegal {nb : BitVec 3} (h : ¬ (1 ≤ nb.toNat ∧ nb.toNat ≤ 4)) :
    Effect r (.enc nb) { r with status := r.status.setSticky .illcmd }
  | dec {nc : BitVec 3} (h : 1 ≤ nc.toNat ∧ nc.toNat ≤ 5) (hv : firstInvalid nc.toNat r.chars = none) :
    Effect r (.dec nc) (r.afterDec nc.toNat)
  | decInvalid {nc : BitVec 3} {j : Fin 5} (h : 1 ≤ nc.toNat ∧ nc.toNat ≤ 5)
    (hv : firstInvalid nc.toNat r.chars = some j) : Effect r (.dec nc) (r.afterDecInvalid j)
  | decIllegal {nc : BitVec 3} (h : ¬ (1 ≤ nc.toNat ∧ nc.toNat ≤ 5)) :
    Effect r (.dec nc) { r with status := r.status.setSticky .illcmd }
  | pade : Effect r .pade (r.setPadResult (encPad r.length) (if r.length = 0 then 0 else 4 - encPad r.length)
      (encGroups r.length) (encOut r.length))
  | padd : Effect r .padd (r.setPadResult (decPad r.length) (if r.length = 0 then 0 else 5 - decPad r.length)
      (decGroups r.length) (decOut r.length))
  | alook (h : r.lutin.toNat ≤ 84) : Effect r .alook { r with lutout := ⟨true, alpha r.lutin.toNat⟩ }
  | alookOutOfRange (h : ¬ r.lutin.toNat ≤ 84) :
    Effect r .alook { r with lutout := ⟨false, 0#8⟩, status := r.status.setSticky .range }
  | ilook (h : inAlphabet r.lutin = true) :
    Effect r .ilook { r with lutout := ⟨true, (inverse r.lutin).value.setWidth 8⟩ }
  | ilookInvalid (h : ¬ inAlphabet r.lutin = true) :
    Effect r .ilook { r with lutout := ⟨false, 0#8⟩, status := r.status.setSticky .invchar }
  | srst : Effect r .srst Regs.reset

/-- The relation is the model's: a command completes with the registers its effect names. -/
theorem Effect.exec_eq {s : State} {i : Instr} {r' : Regs} (he : Effect s.regs i r') :
    exec i s = .next (s.withRegs r') := by
  cases he with
  | nop => rfl
  | enc h => exact execEnc_legal s _ h
  | encIllegal h => exact execEnc_illegal s _ h
  | dec h hv => exact execDec_valid s _ h hv
  | decInvalid h hv => exact execDec_invalid s _ h _ hv
  | decIllegal h => exact execDec_illegal s _ h
  | pade => exact execPade_eq s
  | padd => exact execPadd_eq s
  | alook h => exact execAlook_inRange s h
  | alookOutOfRange h => exact execAlook_outOfRange s h
  | ilook h => exact execIlook_valid s h
  | ilookInvalid h => exact execIlook_invalid s h
  | srst => exact execSrst_eq s

/-- Every command has an effect on all registers. -/
theorem exists_effect (r : Regs) (i : Instr) : ∃ r', Effect r i r' := by
  cases i with
  | nop => exact ⟨_, .nop⟩
  | enc nb =>
    by_cases h : 1 ≤ nb.toNat ∧ nb.toNat ≤ 4
    · exact ⟨_, .enc h⟩
    · exact ⟨_, .encIllegal h⟩
  | dec nc =>
    by_cases h : 1 ≤ nc.toNat ∧ nc.toNat ≤ 5
    · cases hv : firstInvalid nc.toNat r.chars with
      | none => exact ⟨_, .dec h hv⟩
      | some j => exact ⟨_, .decInvalid h hv⟩
    · exact ⟨_, .decIllegal h⟩
  | pade => exact ⟨_, .pade⟩
  | padd => exact ⟨_, .padd⟩
  | alook =>
    by_cases h : r.lutin.toNat ≤ 84
    · exact ⟨_, .alook h⟩
    · exact ⟨_, .alookOutOfRange h⟩
  | ilook =>
    by_cases h : inAlphabet r.lutin = true
    · exact ⟨_, .ilook h⟩
    · exact ⟨_, .ilookInvalid h⟩
  | srst => exact ⟨_, .srst⟩

/-- Every command completes, with the registers of an effect. -/
theorem exec_effect (i : Instr) (s : State) :
    ∃ r', exec i s = .next (s.withRegs r') ∧ Effect s.regs i r' := by
  obtain ⟨r', he⟩ := exists_effect s.regs i
  exact ⟨r', he.exec_eq, he⟩

/-! ### The legal values of the registers (R26, R27, R29, R30, R33, R35) -/

theorem Regs.digitsLegal_iff (r : Regs) : r.digitsLegal ↔ ∀ i : Fin 5, (r.digits.get i).toNat ≤ 84 := by
  simp only [Fin.forall_fin_succ, Fin.forall_fin_zero, and_true]
  rfl

theorem Regs.afterEnc_digitsLegal (r : Regs) (nb : Nat) : (r.afterEnc nb).digitsLegal := by
  rw [Regs.digitsLegal_iff]
  intro i
  rw [Regs.afterEnc_digits, extractDigits_get_toNat]
  exact digitOf_le _ i

theorem Regs.afterDec_digitsLegal (r : Regs) (nc : Nat) : (r.afterDec nc).digitsLegal := by
  rw [Regs.digitsLegal_iff]
  intro i
  rw [Regs.afterDec_digits, lookupDigits_get]
  exact inverse_value_le _

/-- OUTHI and OUTLEN together hold the whole output length where it fits 33 bits (R211). -/
theorem Regs.outlen33_setPadResult (r : Regs) (pad lastn groups out : Nat) (h : out < 2 ^ 33) :
    (r.setPadResult pad lastn groups out).outlen33 = out := by
  simp only [Regs.outlen33, Regs.setPadResult, Nat.toNat_testBit, BitVec.toNat_ofNat]
  omega

/-- What `PADE` writes for a length of the register LEN holds together (R210, R211). -/
theorem Regs.padLegalEnc_setPadResult (r : Regs) (l : Nat) (hl : l < 2 ^ 32) :
    (r.setPadResult (encPad l) (if l = 0 then 0 else 4 - encPad l) (encGroups l) (encOut l)).padLegalEnc := by
  have hpad : encPad l = (4 - l % 4) % 4 := rfl
  have hgroups : encGroups l = (l + 3) / 4 := by
    unfold encGroups
    split <;> omega
  have hout : encOut l = 5 * encGroups l - encPad l := rfl
  rw [Regs.padLegalEnc, Regs.outlen33_setPadResult _ _ _ _ _ (by omega)]
  simp only [Regs.setPadResult, BitVec.toNat_ofNat]
  refine ⟨by omega, by omega, by omega, ?_, by omega⟩
  split <;> split <;> omega

/-- What `PADD` writes for a length of the register LEN holds together (R212, R213). -/
theorem Regs.padLegalDec_setPadResult (r : Regs) (m : Nat) (hm : m < 2 ^ 32) :
    (r.setPadResult (decPad m) (if m = 0 then 0 else 5 - decPad m) (decGroups m) (decOut m)).padLegalDec := by
  have hpad : decPad m = (5 - m % 5) % 5 := rfl
  have hgroups : decGroups m = (m + 4) / 5 := by
    unfold decGroups
    split <;> omega
  have hout : decOut m = 4 * decGroups m - decPad m := rfl
  rw [Regs.padLegalDec, Regs.outlen33_setPadResult _ _ _ _ _ (by omega)]
  simp only [Regs.setPadResult, BitVec.toNat_ofNat]
  refine ⟨by omega, by omega, by omega, ?_, by omega⟩
  split <;> split <;> omega

theorem Regs.reset_legal : Regs.reset.Legal := by decide

/-- A three-bit register holds a small number exactly. -/
theorem toNat_ofNat_three_le {n k : Nat} (hk : k < 8) (h : n ≤ k) : (BitVec.ofNat 3 n).toNat ≤ k := by
  rw [BitVec.toNat_ofNat]
  omega

/-- Every command keeps the registers legal. -/
theorem Effect.legal {r r' : Regs} {i : Instr} (he : Effect r i r') (hr : r.Legal) : r'.Legal := by
  obtain ⟨herr, hdig, hkeep, hpad, hlut⟩ := hr
  cases he with
  | nop | encIllegal _ | decIllegal _ => exact ⟨herr, hdig, hkeep, hpad, hlut⟩
  | enc h =>
    exact ⟨herr, r.afterEnc_digitsLegal _, toNat_ofNat_three_le (by decide) (by omega), hpad, hlut⟩
  | @dec nc h hv =>
    have herr' : (r.afterDec nc.toNat).status.erridx.toNat ≤ 4 := by
      rwa [Regs.afterDec_status, Status.noteWide_erridx]
    exact ⟨herr', r.afterDec_digitsLegal _, toNat_ofNat_three_le (by decide) (by omega), hpad, hlut⟩
  | @decInvalid nc j h hv =>
    exact ⟨toNat_ofNat_three_le (by decide) (by omega), hdig, Nat.zero_le 5, hpad, hlut⟩
  | pade => exact ⟨herr, hdig, hkeep, .inl (r.padLegalEnc_setPadResult _ r.len.isLt), hlut⟩
  | padd => exact ⟨herr, hdig, hkeep, .inr (r.padLegalDec_setPadResult _ r.len.isLt), hlut⟩
  | alook h => exact ⟨herr, hdig, hkeep, hpad, nofun, fun _ => .inl (inAlphabet_alpha _ h)⟩
  | ilook h =>
    have hval : ((inverse r.lutin).value.setWidth 8).toNat ≤ 84 := by
      rw [BitVec.toNat_setWidth_of_le (by decide)]
      exact inverse_value_le _
    exact ⟨herr, hdig, hkeep, hpad, nofun, fun _ => .inr hval⟩
  | alookOutOfRange _ | ilookInvalid _ => exact ⟨herr, hdig, hkeep, hpad, fun _ => rfl, nofun⟩
  | srst => exact Regs.reset_legal

/-- A host's write touches no register the block writes, the W1C flags of STATUS aside. -/
theorem Regs.writeReg_legal {r : Regs} (h : r.Legal) (v : Word) (reg : Reg) : (r.writeReg v reg).Legal := by
  cases reg <;> exact h

/-- A write to CMD of any word keeps the registers legal. -/
theorem execute_legal {w : Word} {s t : State} (h : s.regs.Legal) (ht : execute w s = .next t) : t.regs.Legal := by
  rcases execute_cases w s with ⟨i, _, he⟩ | ⟨e, _, he⟩
  · obtain ⟨r', hr', heff⟩ := exec_effect i s
    cases (he.trans hr').symm.trans ht
    exact heff.legal h
  · cases he.symm.trans ht
    exact h

/-- A bus write that completes keeps the registers legal. -/
theorem memWrite_legal {addr : Offset} {size : Nat} {v : Word} {s t : State} (h : s.regs.Legal)
    (ht : memWrite addr size v s = .next t) : t.regs.Legal := by
  cases htgt : busTarget addr size with
  | none => simp [memWrite, htgt] at ht
  | some reg =>
    obtain ⟨rfl, rfl⟩ := busTarget_eq_some htgt
    by_cases hcmd : reg = .cmd
    · subst hcmd
      exact execute_legal h ((memWrite_cmd v s).symm.trans ht)
    · cases (memWrite_reg reg v s hcmd).symm.trans ht
      exact Regs.writeReg_legal h v reg

/-- Settles O51: by the cases of a step, of which only a write runs a command. -/
theorem stepKeepsTheInvariant : Obligations.StepKeepsTheInvariant := by
  unfold Obligations.StepKeepsTheInvariant
  rintro s t ⟨hlegal, hlen⟩ ht
  rcases step_cases s with ⟨_, hs⟩ | ⟨addr, size, rest, r, _, _, hs⟩ | ⟨addr, size, v, rest, r, _, hw, hs⟩ |
    ⟨rest, _, hs⟩ | ⟨addr, size, rest, _, _, hs⟩
  · cases hs.symm.trans ht
    exact ⟨hlegal, hlen⟩
  · cases hs.symm.trans ht
    exact ⟨hlegal, by simp [hlen]⟩
  · cases hs.symm.trans ht
    exact ⟨memWrite_legal (s := s.complete rest .writeDone) hlegal hw, by simp [hlen]⟩
  · cases hs.symm.trans ht
    exact ⟨Regs.reset_legal, hlen⟩
  · cases hs.symm.trans ht

/-! ### The run of the host's program (R20) -/

/-- Settles O17: by the cases of a step. -/
theorem eachAccessAdvancesPcByOne : Obligations.EachAccessAdvancesPcByOne := by
  unfold Obligations.EachAccessAdvancesPcByOne
  intro s t e rest hp ht
  rcases step_cases s with ⟨hp', _⟩ | ⟨addr, size, rest', r, hp', _, hs⟩ |
    ⟨addr, size, v, rest', r, hp', _, hs⟩ | ⟨rest', hp', hs⟩ | ⟨addr, size, rest', _, _, hs⟩
  · cases hp'.symm.trans hp
  · cases hp'.symm.trans hp
    cases hs.symm.trans ht
    exact ⟨rfl, fun _ => ⟨rfl, _, rfl⟩, nofun⟩
  · cases hp'.symm.trans hp
    cases hs.symm.trans ht
    exact ⟨rfl, fun _ => ⟨rfl, _, rfl⟩, nofun⟩
  · cases hp'.symm.trans hp
    cases hs.symm.trans ht
    exact ⟨rfl, fun h => absurd rfl h, fun _ => ⟨rfl, rfl⟩⟩
  · cases hs.symm.trans ht

end Sys2Proof.Machine
end

section
/-! PROOFS. STATUS (spec/10_state.md R31 to R33, R39): what a command does to it, and which other registers a command
may change. -/

namespace Sys2Proof.Machine

open Sys2Proof.Claims

/-! ### The flags and ERR (R31, R32) -/

/-- The flag bits of a read of STATUS; OVF is hardwired 0 (R31). -/
theorem Status.toWord_getLsbD_flags (st : Status) :
    st.toWord.getLsbD 0 = st.invchar ∧ st.toWord.getLsbD 1 = false ∧ st.toWord.getLsbD 2 = st.illcmd ∧
      st.toWord.getLsbD 3 = st.range := by
  simp only [Status.toWord, BitVec.getLsbD_append]
  simp [Status.ovf]

/-- WIDE is bit 4 of a read of STATUS and enters no other bit (R31, R32). -/
theorem Status.toWord_with_wide (st : Status) (b : Bool) :
    Status.toWord { st with wide := b } = if b then st.toWord ||| 0x10 else st.toWord &&& ~~~ 0x10 := by
  obtain ⟨invchar, illcmd, range, wide, erridx⟩ := st
  revert invchar illcmd range wide erridx b
  decide

/-- Settles O20: from the bits of a read of STATUS. -/
theorem errSummarisesTheErrorFlags : Obligations.ErrSummarisesTheErrorFlags := by
  unfold Obligations.ErrSummarisesTheErrorFlags
  intro s
  obtain ⟨h0, h1, h2, h3⟩ := s.regs.status.toWord_getLsbD_flags
  refine ⟨s.regs.status.toWord, memRead_offset .status s, ?_, h1, fun b => ?_⟩
  · rw [Status.toWord_getLsbD_31, h0, h1, h2, h3]
    rfl
  · rw [← Status.toWord_with_wide]
    exact memRead_offset .status _

/-- STATUS after an access that sets at most one flag and writes at most one lane to ERRIDX. -/
def Status.note (st : Status) (set : Option Flag) (lane : Option (Fin 5)) : Status :=
  { set.elim st st.setSticky with erridx := (lane.map fun j => BitVec.ofNat 3 j.val).getD st.erridx }

@[simp] theorem Status.note_none_none (st : Status) : st.note none none = st := rfl

@[simp] theorem Status.note_some_none (st : Status) (f : Flag) : st.note (some f) none = st.setSticky f := by
  cases f <;> rfl

@[simp] theorem Status.flag_note (st : Status) (set : Option Flag) (lane : Option (Fin 5)) (f : Flag) :
    (st.note set lane).flag f = (st.flag f || decide (set = some f)) := by
  cases set with
  | none => cases f <;> simp [Status.note, Status.flag]
  | some g => cases g <;> cases f <;> simp [Status.note, Status.flag, Status.setSticky]

@[simp] theorem Status.erridx_note (st : Status) (set : Option Flag) (lane : Option (Fin 5)) :
    (st.note set lane).erridx = (lane.map fun j => BitVec.ofNat 3 j.val).getD st.erridx := rfl

/-- The lane a command reports in ERRIDX: the lowest invalid real lane of a `DEC` (R33, R184). -/
def reportedLane (i : Instr) (r : Regs) : Option (Fin 5) :=
  match i with
  | .dec nc => if 1 ≤ nc.toNat ∧ nc.toNat ≤ 5 then firstInvalid nc.toNat r.chars else none
  | _ => none

theorem wellFormed_enc_iff (nb : BitVec 3) : (Instr.enc nb).WellFormed ↔ 1 ≤ nb.toNat ∧ nb.toNat ≤ 4 := by
  simp [Instr.WellFormed, Instr.wellFormed]

theorem wellFormed_dec_iff (nc : BitVec 3) : (Instr.dec nc).WellFormed ↔ 1 ≤ nc.toNat ∧ nc.toNat ≤ 5 := by
  simp [Instr.WellFormed, Instr.wellFormed]

theorem commandCause_enc (nb : BitVec 3) (r : Regs) :
    commandCause (.enc nb) r = if 1 ≤ nb.toNat ∧ nb.toNat ≤ 4 then .none else .illegalCommand :=
  if_congr (wellFormed_enc_iff nb) rfl rfl

theorem commandCause_dec (nc : BitVec 3) (r : Regs) :
    commandCause (.dec nc) r =
      if 1 ≤ nc.toNat ∧ nc.toNat ≤ 5 then
        if (firstInvalid nc.toNat r.chars).isSome then .invalidCharacter
        else if 2 ^ 32 ≤ r.decValue nc.toNat then .wide
        else .none
      else .illegalCommand :=
  if_congr (wellFormed_dec_iff nc) rfl rfl

/-- Every command but `SRST` changes STATUS by the flag of its cause and the lane it reports, and in no other way
(R31, R33, R308). -/
theorem Effect.status {r r' : Regs} {i : Instr} (he : Effect r i r') (hi : i ≠ .srst) :
    r'.status = r.status.note (commandCause i r).flag (reportedLane i r) := by
  cases he with
  | nop | pade | padd => rfl
  | enc h | encIllegal h => simp [commandCause_enc, reportedLane, h, Cause.flag]
  | decIllegal h => simp [commandCause_dec, reportedLane, h, Cause.flag]
  | decInvalid h hv =>
    simp [commandCause_dec, reportedLane, h, hv, Cause.flag, Regs.afterDecInvalid, Status.note]
  | @dec nc h hv =>
    have hcause : commandCause (.dec nc) r = if 2 ^ 32 ≤ r.decValue nc.toNat then .wide else .none := by
      rw [commandCause_dec, if_pos h, hv]
      rfl
    rw [hcause, reportedLane, if_pos h, hv, Regs.afterDec_status, Status.noteWide]
    split_ifs <;> simp [Cause.flag]
  | alook h | alookOutOfRange h | ilook h | ilookInvalid h => simp [commandCause, reportedLane, h, Cause.flag]
  | srst => exact absurd rfl hi

/-- Settles O21: what STATUS holds after a command has every flag it held before. -/
theorem commandsNeverClearAFlag : Obligations.CommandsNeverClearAFlag := by
  unfold Obligations.CommandsNeverClearAFlag
  intro i s hi
  obtain ⟨r', hr', he⟩ := exec_effect i s
  refine ⟨_, hr', fun f hf => ?_⟩
  rw [State.withRegs_regs, he.status hi, Status.flag_note, hf, Bool.true_or]

/-! ### No command reads a flag (R39) -/

theorem commandCause_withStatus (i : Instr) (r : Regs) (st : Status) :
    commandCause i { r with status := st } = commandCause i r := by
  cases i <;> rfl

theorem reportedLane_withStatus (i : Instr) (r : Regs) (st : Status) :
    reportedLane i { r with status := st } = reportedLane i r := by
  cases i <;> rfl

/-- With any other STATUS a command but `SRST` takes the same branch and leaves the same other registers. -/
theorem Effect.withStatus {r r' : Regs} {i : Instr} (he : Effect r i r') (hi : i ≠ .srst) (st : Status) :
    ∃ st', Effect { r with status := st } i { r' with status := st' } := by
  cases he with
  | nop => exact ⟨_, .nop⟩
  | enc h => exact ⟨_, .enc h⟩
  | encIllegal h => exact ⟨_, .encIllegal h⟩
  | dec h hv => exact ⟨_, .dec h hv⟩
  | decInvalid h hv => exact ⟨_, .decInvalid h hv⟩
  | decIllegal h => exact ⟨_, .decIllegal h⟩
  | pade => exact ⟨_, .pade⟩
  | padd => exact ⟨_, .padd⟩
  | alook h => exact ⟨_, .alook h⟩
  | alookOutOfRange h => exact ⟨_, .alookOutOfRange h⟩
  | ilook h => exact ⟨_, .ilook h⟩
  | ilookInvalid h => exact ⟨_, .ilookInvalid h⟩
  | srst => exact absurd rfl hi

/-- Settles O23: the other registers by `Effect.withStatus`; the flag and the lane by `Effect.status`, whose cause and
lane do not depend on STATUS. -/
theorem noCommandReadsStatus : Obligations.NoCommandReadsStatus := by
  unfold Obligations.NoCommandReadsStatus
  refine ⟨fun i s hi => ?_, fun s st => ⟨_, execSrst_eq s, execSrst_eq _⟩⟩
  obtain ⟨r', _, he⟩ := exec_effect i s
  refine ⟨r', fun f => decide ((commandCause i s.regs).flag = some f),
    (reportedLane i s.regs).map fun j => BitVec.ofNat 3 j.val, fun st => ?_⟩
  obtain ⟨st', he'⟩ := he.withStatus hi st
  have hst : st' = st.note (commandCause i s.regs).flag (reportedLane i s.regs) := by
    simpa only [commandCause_withStatus, reportedLane_withStatus] using he'.status hi
  subst hst
  exact ⟨_, Effect.exec_eq he', rfl, Status.flag_note _ _ _, Status.erridx_note _ _ _⟩

/-! ### ERRIDX (R33) -/

theorem opField_toNat (w : Word) : (opField w).toNat = w.toNat % 16 := by
  simp [opField, BitVec.extractLsb'_toNat]

theorem cntField_toNat (w : Word) : (cntField w).toNat = w.toNat / 16 % 8 := by
  simp [cntField, BitVec.extractLsb'_toNat, Nat.shiftRight_eq_div_pow]

theorem rsvField_toNat (w : Word) : (rsvField w).toNat = w.toNat / 2 ^ 7 := by
  have := w.isLt
  rw [rsvField, BitVec.extractLsb'_toNat, Nat.shiftRight_eq_div_pow]
  omega

/-- What a word that decodes has passed: no reserved bit, an opcode of the map, a count in its range (R92). -/
theorem decode_eq_ok {w : Word} {i : Instr} (h : decode w = .ok i) :
    rsvField w = 0#25 ∧ instrOfOpcode (opField w) (cntField w) = some i ∧
      countLegal (opField w) (cntField w) = true := by
  unfold decode at h
  split at h
  case isFalse => cases h
  case isTrue hrsv =>
    split at h
    case h_2 => cases h
    case h_1 i' hop =>
      split at h
      case isFalse => cases h
      case isTrue hcnt =>
        cases h
        exact ⟨hrsv, hop, hcnt⟩

/-- The opcodes of the map with the counts they may carry (R92, R94). -/
theorem opcode_count_legal : ∀ (op : BitVec 4) (cnt : BitVec 3), (instrOfOpcode op cnt).isSome = true →
    countLegal op cnt = true →
    op.toNat = 1 ∧ 1 ≤ cnt.toNat ∧ cnt.toNat ≤ 4 ∨ op.toNat = 2 ∧ 1 ≤ cnt.toNat ∧ cnt.toNat ≤ 5 ∨
      (op.toNat = 0 ∨ op.toNat = 3 ∨ op.toNat = 4 ∨ op.toNat = 5 ∨ op.toNat = 6 ∨ op.toNat = 7) ∧
        cnt.toNat = 0 := by
  decide

/-- A word that decodes is `Legal` (R92). -/
theorem commandLegal_of_decode_ok {w : Word} {i : Instr} (h : decode w = .ok i) : commandLegal w := by
  obtain ⟨hrsv, hop, hcnt⟩ := decode_eq_ok h
  have hlegal := opcode_count_legal (opField w) (cntField w) (by rw [hop]; rfl) hcnt
  rw [opField_toNat, cntField_toNat] at hlegal
  exact ⟨by rw [← rsvField_toNat, hrsv]; rfl, hlegal⟩

/-- A word that is not `Legal` sets ILLCMD and does nothing else (R93). -/
theorem execute_of_not_commandLegal {w : Word} (s : State) (hw : ¬ commandLegal w) :
    execute w s = .next (s.raise .illcmd) := by
  rcases execute_cases w s with ⟨i, hd, _⟩ | ⟨e, _, he⟩
  · exact absurd (commandLegal_of_decode_ok hd) hw
  · exact he

/-- No host's write changes ERRIDX, a write to STATUS among them (R33). -/
theorem Regs.writeReg_erridx (r : Regs) (v : Word) (reg : Reg) :
    (r.writeReg v reg).status.erridx = r.status.erridx := by
  cases reg <;> rfl

/-- A well-formed `DEC` reports its lowest invalid real lane (R33, R184). -/
theorem reportedLane_dec_eq_some {nc : BitVec 3} {r : Regs} {j : Fin 5} (hwf : (Instr.dec nc).WellFormed)
    (hj : j.val < nc.toNat) (hbad : inAlphabet (r.chars.get j) = false)
    (hlow : ∀ k < j, inAlphabet (r.chars.get k) = true) : reportedLane (.dec nc) r = some j := by
  rw [reportedLane, if_pos ((wellFormed_dec_iff nc).mp hwf), firstInvalid_eq_some]
  exact ⟨hj, hbad, hlow⟩

/-- A command that is no well-formed `DEC` with an invalid real lane reports none (R33). -/
theorem reportedLane_eq_none {i : Instr} {s : State}
    (h : ∀ nc : BitVec 3, i = .dec nc → i.WellFormed → realLanesValid s nc.toNat) :
    reportedLane i s.regs = none := by
  cases i with
  | dec nc =>
    rw [reportedLane]
    split
    next hcount =>
      rw [firstInvalid_eq_none]
      exact h nc rfl ((wellFormed_dec_iff nc).mpr hcount)
    next => rfl
  | nop | enc _ | pade | padd | alook | ilook | srst => rfl

/-- The hardware reset gives every register its reset value (R341). -/
theorem step_hardReset {s : State} {rest : List BusEvent} (hp : s.pending = .hardReset :: rest) :
    step s = .next { s with regs := Regs.reset, pending := rest } := by
  simp [step, busStep, hp, perform]

/-- Settles O24: a command writes the lane it reports; a host's write, an illegal word and the reset by their own
rules. -/
theorem erridxNamesTheLastInvalidLane : Obligations.ErridxNamesTheLastInvalidLane := by
  unfold Obligations.ErridxNamesTheLastInvalidLane
  refine ⟨fun i s => ?_, fun s r v hr => ?_, fun s w hw => ?_, fun s rest hp => ?_⟩
  · obtain ⟨r', hr', he⟩ := exec_effect i s
    refine ⟨_, hr', ?_, ?_, ?_⟩
    · rintro rfl
      cases he
      rfl
    · rintro nc rfl hwf j hj hbad hlow
      rw [State.withRegs_regs, he.status (by simp), Status.erridx_note,
        reportedLane_dec_eq_some hwf hj hbad hlow]
      simp only [Option.map_some, Option.getD_some, BitVec.toNat_ofNat]
      omega
    · intro hi hvalid
      rw [State.withRegs_regs, he.status hi, Status.erridx_note, reportedLane_eq_none hvalid]
      rfl
  · exact ⟨_, memWrite_reg r v s hr, Regs.writeReg_erridx s.regs v r⟩
  · exact ⟨_, (memWrite_cmd w s).trans (execute_of_not_commandLegal s hw), Status.setSticky_erridx .illcmd _⟩
  · exact ⟨_, step_hardReset hp, rfl⟩

/-! ### Which registers a command may change (R27, R29, R30, R35) -/

section frame

variable {r r' : Regs} {i : Instr}

/-- Only `ENC`, `DEC` and `SRST` write the group registers. -/
theorem Effect.group_eq (he : Effect r i r') (henc : ∀ n, i ≠ .enc n) (hdec : ∀ n, i ≠ .dec n)
    (hsrst : i ≠ .srst) :
    r'.word = r.word ∧ r'.cha = r.cha ∧ r'.chb = r.chb ∧ r'.digits = r.digits ∧ r'.keep = r.keep := by
  cases he with
  | enc _ | encIllegal _ => exact absurd rfl (henc _)
  | dec _ _ | decInvalid _ _ | decIllegal _ => exact absurd rfl (hdec _)
  | srst => exact absurd rfl hsrst
  | nop | pade | padd | alook _ | alookOutOfRange _ | ilook _ | ilookInvalid _ => exact ⟨rfl, rfl, rfl, rfl, rfl⟩

/-- Only `PADE`, `PADD` and `SRST` write the results of the padding calculator. -/
theorem Effect.padResult_eq (he : Effect r i r') (hpade : i ≠ .pade) (hpadd : i ≠ .padd) (hsrst : i ≠ .srst) :
    r'.padinfo = r.padinfo ∧ r'.groups = r.groups ∧ r'.outlen = r.outlen := by
  cases he with
  | pade => exact absurd rfl hpade
  | padd => exact absurd rfl hpadd
  | srst => exact absurd rfl hsrst
  | nop | enc _ | encIllegal _ | dec _ _ | decInvalid _ _ | decIllegal _ | alook _ | alookOutOfRange _ | ilook _
  | ilookInvalid _ => exact ⟨rfl, rfl, rfl⟩

/-- Only `ALOOK`, `ILOOK` and `SRST` write LUTOUT. -/
theorem Effect.lutout_eq (he : Effect r i r') (halook : i ≠ .alook) (hilook : i ≠ .ilook) (hsrst : i ≠ .srst) :
    r'.lutout = r.lutout := by
  cases he with
  | alook _ | alookOutOfRange _ => exact absurd rfl halook
  | ilook _ | ilookInvalid _ => exact absurd rfl hilook
  | srst => exact absurd rfl hsrst
  | nop | enc _ | encIllegal _ | dec _ _ | decInvalid _ _ | decIllegal _ | pade | padd => rfl

/-- Only `SRST` writes LEN and LUTIN. -/
theorem Effect.operand_eq (he : Effect r i r') (hsrst : i ≠ .srst) : r'.len = r.len ∧ r'.lutin = r.lutin := by
  cases he with
  | srst => exact absurd rfl hsrst
  | nop | enc _ | encIllegal _ | dec _ _ | decInvalid _ _ | decIllegal _ | pade | padd | alook _ | alookOutOfRange _
  | ilook _ | ilookInvalid _ => exact ⟨rfl, rfl⟩

/-- A well-formed command with no check of its own leaves STATUS (R308). -/
theorem Effect.status_eq (he : Effect r i r') (hwf : i.WellFormed) (hdec : ∀ n, i ≠ .dec n) (halook : i ≠ .alook)
    (hilook : i ≠ .ilook) (hsrst : i ≠ .srst) : r'.status = r.status := by
  cases he with
  | encIllegal h => exact absurd ((wellFormed_enc_iff _).mp hwf) h
  | dec _ _ | decInvalid _ _ | decIllegal _ => exact absurd rfl (hdec _)
  | alook _ | alookOutOfRange _ => exact absurd rfl halook
  | ilook _ | ilookInvalid _ => exact absurd rfl hilook
  | srst => exact absurd rfl hsrst
  | nop | enc _ | pade | padd => rfl

end frame

/-- Settles O25: one lemma on a command's effect for each group of registers. -/
theorem commandsWriteOnlyTheirRegisters : Obligations.CommandsWriteOnlyTheirRegisters := by
  unfold Obligations.CommandsWriteOnlyTheirRegisters
  intro i s
  obtain ⟨r', hr', he⟩ := exec_effect i s
  exact ⟨_, hr', rfl, he.group_eq, he.padResult_eq, he.lutout_eq, he.operand_eq, he.status_eq⟩

end Sys2Proof.Machine
end

section
/-! PROOFS. The bus (spec/20_memory.md): which accesses reach a register, what a read returns and a write leaves, and
the step that performs an access. -/

namespace Sys2Proof.Machine

open Sys2Proof.Claims

variable {addr : Offset} {size : Nat} {v w : Word} {s : State} {rest : List BusEvent}

/-! ### Which accesses reach a register (R61, R65) -/

theorem busTarget_eq_none_iff_illFormed : busTarget addr size = none ↔ accessIllFormed addr size :=
  busTarget_eq_none addr size

/-- A well-formed access is a 4-byte access at a register's offset. -/
theorem exists_reg_of_not_illFormed (h : ¬ accessIllFormed addr size) :
    ∃ reg : Reg, size = 4 ∧ addr = reg.offset := by
  rw [← busTarget_eq_none_iff_illFormed, ← ne_eq, Option.ne_none_iff_exists'] at h
  obtain ⟨reg, hreg⟩ := h
  exact ⟨reg, busTarget_eq_some hreg⟩

theorem memRead_illFormed (s : State) (h : accessIllFormed addr size) :
    memRead addr size s = .error (.busError addr size) := by
  simp [memRead, busTarget_eq_none_iff_illFormed.mpr h]

theorem memWrite_illFormed (v : Word) (s : State) (h : accessIllFormed addr size) :
    memWrite addr size v s = .fault (.busError addr size) := by
  simp [memWrite, busTarget_eq_none_iff_illFormed.mpr h]

/-- A 4-byte write to any register completes. -/
theorem memWrite_offset_next (reg : Reg) (v : Word) (s : State) : ∃ t, memWrite reg.offset 4 v s = .next t := by
  rcases memWrite_cases reg.offset 4 v s with ⟨r, hr⟩ | ⟨hnone, _⟩
  · exact ⟨_, hr⟩
  · simp at hnone

/-- Settles O12: the bus error by the ill-formed access, completion at the register of any other offset. -/
theorem onlyOffset3CIsUnmapped : Obligations.OnlyOffset3CIsUnmapped := by
  unfold Obligations.OnlyOffset3CIsUnmapped
  intro s addr v haligned
  constructor
  · rintro rfl
    have hill : accessIllFormed 0x3C 4 := .inr (.inr rfl)
    exact ⟨memRead_illFormed s hill, memWrite_illFormed v s hill⟩
  · intro hne
    have hwell : ¬ accessIllFormed addr 4 := by
      rintro (h | h | h)
      · exact h rfl
      · exact h haligned
      · exact hne (BitVec.eq_of_toNat_eq h)
    obtain ⟨reg, -, rfl⟩ := exists_reg_of_not_illFormed hwell
    exact ⟨⟨_, memRead_offset reg s⟩, memWrite_offset_next reg v s⟩

/-- Settles O19: from the bounds of `offsetAt`. -/
theorem registerSpaceIsSixtyFourBytes : Obligations.RegisterSpaceIsSixtyFourBytes := by
  unfold Obligations.RegisterSpaceIsSixtyFourBytes
  intro base address
  constructor
  · rintro off rfl
    have hoff := off.isLt
    rw [offsetAt, if_pos (by omega), Nat.add_sub_cancel_left, BitVec.ofNat_toNat, BitVec.setWidth_eq]
  · intro h
    rw [offsetAt, if_neg (by omega)]

/-! ### The words a read returns (R62) -/

/-- The number of two fields side by side: the high one counts above the bits of the low one. -/
theorem toNat_append_eq_add {m n : Nat} (x : BitVec m) (y : BitVec n) :
    (x ++ y).toNat = 2 ^ n * x.toNat + y.toNat := by
  rw [BitVec.toNat_append, ← Nat.shiftLeft_add_eq_or_of_lt y.isLt, Nat.shiftLeft_eq, Nat.mul_comm]

/-- The bits of STATUS as a number; OVF, bit 1, counts nothing (R31, R32). -/
theorem Status.toWord_toNat (st : Status) :
    st.toWord.toNat =
      2 ^ 31 * (st.invchar || st.illcmd || st.range).toNat + 2 ^ 8 * st.erridx.toNat + 2 ^ 4 * st.wide.toNat +
        2 ^ 3 * st.range.toNat + 2 ^ 2 * st.illcmd.toNat + st.invchar.toNat := by
  simp only [Status.toWord, Status.err, Status.ovf, toNat_append_eq_add, BitVec.toNat_ofBool, BitVec.toNat_ofNat,
    Bool.or_false, Bool.toNat_false]
  omega

theorem Regs.digaWord_toNat (r : Regs) :
    r.digaWord.toNat =
      2 ^ 24 * (r.digits.get 0).toNat + 2 ^ 16 * (r.digits.get 1).toNat + 2 ^ 8 * (r.digits.get 2).toNat +
        (r.digits.get 3).toNat := by
  simp only [Regs.digaWord, Lanes.get, toNat_append_eq_add, BitVec.toNat_ofNat]
  omega

theorem PadInfo.toWord_toNat (p : PadInfo) :
    p.toWord.toNat = 2 ^ 8 * p.outhi.toNat + 2 ^ 4 * p.lastn.toNat + p.pad.toNat := by
  simp only [PadInfo.toWord, toNat_append_eq_add, BitVec.toNat_ofBool, BitVec.toNat_ofNat]
  omega

theorem LutOut.toWord_toNat (l : LutOut) : l.toWord.toNat = 2 ^ 8 * l.valid.toNat + l.data.toNat := by
  simp only [LutOut.toWord, toNat_append_eq_add, BitVec.toNat_ofBool, BitVec.toNat_ofNat]
  omega

/-- A register reads as the table's number for its offset (R62). -/
theorem Regs.readReg_toNat (r : Regs) (reg : Reg) : (r.readReg reg).toNat = readTable r reg.offset.toNat := by
  cases reg with
  | id | cmd | word | cha | len | groups | outlen => rfl
  | chb | digb | keep | lutin => exact BitVec.toNat_setWidth_of_le (by decide)
  | status => exact r.status.toWord_toNat
  | diga => exact r.digaWord_toNat
  | padinfo => exact r.padinfo.toWord_toNat
  | lutout => exact r.lutout.toWord_toNat

/-- Settles O7: an access that is not ill-formed reads the register at its offset. -/
theorem readReturnsRegisterTable : Obligations.ReadReturnsRegisterTable := by
  unfold Obligations.ReadReturnsRegisterTable
  intro s addr size
  refine ⟨memRead_illFormed s, fun hwell => ?_⟩
  obtain ⟨reg, rfl, rfl⟩ := exists_reg_of_not_illFormed hwell
  exact ⟨_, memRead_offset reg s, s.regs.readReg_toNat reg⟩

/-! ### What a write leaves (R63, R66, R70) -/

/-- A read-only register ignores a write (R66). -/
theorem memWrite_readOnly {reg : Reg} (h : readOnlyReg reg) (v : Word) (s : State) :
    memWrite reg.offset 4 v s = .next s := by
  rcases h with rfl | rfl | rfl | rfl | rfl | rfl | rfl | rfl <;> exact memWrite_reg _ v s (by decide)

/-- A write to STATUS clears its W1C bits (R63). -/
theorem memWrite_status (v : Word) (s : State) :
    memWrite (Reg.offset .status) 4 v s =
      .next (s.withRegs { s.regs with status := s.regs.status.writeOneToClear v }) :=
  memWrite_reg .status v s (by decide)

/-- A W1C write, flag by flag: a 1 clears, a 0 keeps (R63). -/
theorem Status.writeOneToClear_eq_ite (st : Status) (v : Word) :
    st.writeOneToClear v =
      { invchar := if v.getLsbD 0 then false else st.invchar
        illcmd := if v.getLsbD 2 then false else st.illcmd
        range := if v.getLsbD 3 then false else st.range
        wide := if v.getLsbD 4 then false else st.wide
        erridx := st.erridx } := by
  have clear (b c : Bool) : (b && !c) = if c then false else b := by cases c <;> simp
  simp only [Status.writeOneToClear, clear]

/-- The low byte of a word as a number. -/
theorem setWidth_eight_eq_ofNat (v : Word) : v.setWidth 8 = BitVec.ofNat 8 (v.toNat % 256) := by
  apply BitVec.eq_of_toNat_eq
  rw [BitVec.toNat_setWidth, BitVec.toNat_ofNat]
  omega

/-- The eight offsets whose write line is empty are those of the read-only registers (R63, R66). -/
theorem exists_readOnlyReg_of_mem :
    ∀ addr : Offset, addr ∈ ([0x00, 0x18, 0x1C, 0x20, 0x28, 0x2C, 0x30, 0x38] : List Offset) →
      ∃ reg : Reg, readOnlyReg reg ∧ addr = reg.offset := by
  simp only [List.forall_mem_cons, List.not_mem_nil, false_imp_iff, implies_true, and_true]
  unfold readOnlyReg
  exact ⟨⟨.id, by decide⟩, ⟨.diga, by decide⟩, ⟨.digb, by decide⟩, ⟨.keep, by decide⟩, ⟨.padinfo, by decide⟩,
    ⟨.groups, by decide⟩, ⟨.outlen, by decide⟩, ⟨.lutout, by decide⟩⟩

/-- Settles O9: one write rule for each offset. -/
theorem writeFollowsRegisterTable : Obligations.WriteFollowsRegisterTable := by
  unfold Obligations.WriteFollowsRegisterTable
  intro s addr size v
  refine ⟨memWrite_illFormed v s, fun hwell => ?_⟩
  obtain ⟨_, rfl, -⟩ := exists_reg_of_not_illFormed hwell
  refine ⟨?cmd, ?status, ?word, ?cha, ?chb, ?len, ?lutin, fun hmem => ?readOnly⟩
  case cmd =>
    rintro rfl
    exact memWrite_cmd v s
  case status =>
    rintro rfl
    rw [← Status.writeOneToClear_eq_ite]
    exact memWrite_status v s
  case word =>
    rintro rfl
    exact memWrite_reg .word v s (by decide)
  case cha =>
    rintro rfl
    exact memWrite_reg .cha v s (by decide)
  case chb =>
    rintro rfl
    rw [← setWidth_eight_eq_ofNat]
    exact memWrite_reg .chb v s (by decide)
  case len =>
    rintro rfl
    exact memWrite_reg .len v s (by decide)
  case lutin =>
    rintro rfl
    rw [← setWidth_eight_eq_ofNat]
    exact memWrite_reg .lutin v s (by decide)
  case readOnly =>
    obtain ⟨reg, hreg, rfl⟩ := exists_readOnlyReg_of_mem addr hmem
    exact memWrite_readOnly hreg v s

/-- Settles O13: a read-only register takes no write, and a W1C write sets no flag. -/
theorem readOnlyRegistersIgnoreWrites : Obligations.ReadOnlyRegistersIgnoreWrites := by
  unfold Obligations.ReadOnlyRegistersIgnoreWrites
  refine ⟨fun s reg v hreg => memWrite_readOnly hreg v s, fun s v => ?_⟩
  exact ⟨_, memWrite_status v s, Status.writeOneToClear_erridx _ v, s.regs.status.flag_of_writeOneToClear v⟩

/-- A W1C write clears nothing more the second time. -/
theorem Status.writeOneToClear_idem (st : Status) (v : Word) :
    (st.writeOneToClear v).writeOneToClear v = st.writeOneToClear v := by
  simp [Status.writeOneToClear]

/-- A register takes a value once: writing it again changes nothing (R70). -/
theorem Regs.writeReg_idem (r : Regs) (v : Word) (reg : Reg) :
    (r.writeReg v reg).writeReg v reg = r.writeReg v reg := by
  cases reg with
  | status =>
    simp only [Regs.writeReg]
    rw [Status.writeOneToClear_idem]
  | id | cmd | word | cha | chb | diga | digb | keep | len | padinfo | groups | outlen | lutin | lutout => rfl

/-- Settles O16: none of the six registers is CMD, and a register write is idempotent. -/
theorem registerWritesAreIdempotent : Obligations.RegisterWritesAreIdempotent := by
  unfold Obligations.RegisterWritesAreIdempotent operandReg
  intro s reg v hreg
  have hcmd : reg ≠ .cmd := by
    rintro rfl
    simp at hreg
  refine ⟨_, memWrite_reg reg v s hcmd, ?_⟩
  rw [memWrite_reg reg v _ hcmd, State.withRegs_regs, Regs.writeReg_idem, State.withRegs_withRegs]

/-! ### Reserved bits (R67) -/

/-- A narrow register reads as its bits under zeros. -/
theorem setWidth_eq_zero_append {m n : Nat} (x : BitVec n) : x.setWidth (m + n) = 0#m ++ x := by
  apply BitVec.eq_of_toNat_eq
  rw [BitVec.toNat_setWidth_of_le (by omega), toNat_append_eq_add, BitVec.toNat_ofNat]
  simp

/-- The bits above a narrow register read 0. -/
theorem setWidth_and_high (m n : Nat) (x : BitVec n) :
    x.setWidth (m + n) &&& (BitVec.allOnes m ++ 0#n) = 0#(m + n) := by
  rw [setWidth_eq_zero_append, BitVec.and_append, BitVec.zero_and, BitVec.and_zero, BitVec.zero_append_zero]

/-- The reserved bits of STATUS are zeros of `Status.toWord` (R31); OVF is no reserved bit, though it reads 0. -/
theorem Status.toWord_and_reserved (st : Status) : st.toWord &&& ~~~ definedBits .status = 0 := by
  change st.toWord &&& (0#1 ++ BitVec.allOnes 20 ++ 0#3 ++ BitVec.allOnes 3 ++ 0#1 ++ 0#1 ++ 0#1 ++ 0#1 ++ 0#1) = 0
  simp only [Status.toWord, BitVec.and_append (v := 1), BitVec.and_append (v := 3), BitVec.and_append (v := 20),
    BitVec.and_zero, BitVec.zero_and]
  rfl

theorem Regs.digaWord_and_reserved (r : Regs) : r.digaWord &&& ~~~ definedBits .diga = 0 := by
  change r.digaWord &&& (1#1 ++ 0#7 ++ 1#1 ++ 0#7 ++ 1#1 ++ 0#7 ++ 1#1 ++ 0#7) = 0
  simp only [Regs.digaWord, BitVec.and_append (v := 1), BitVec.and_append (v := 7), BitVec.and_zero, BitVec.zero_and]
  rfl

theorem PadInfo.toWord_and_reserved (p : PadInfo) : p.toWord &&& ~~~ definedBits .padinfo = 0 := by
  change p.toWord &&& (BitVec.allOnes 23 ++ 0#1 ++ 1#1 ++ 0#3 ++ 1#1 ++ 0#3) = 0
  simp only [PadInfo.toWord, BitVec.and_append (v := 1), BitVec.and_append (v := 3), BitVec.and_zero, BitVec.zero_and]
  rfl

theorem LutOut.toWord_and_reserved (l : LutOut) : l.toWord &&& ~~~ definedBits .lutout = 0 := by
  change l.toWord &&& (BitVec.allOnes 23 ++ 0#1 ++ 0#8) = 0
  simp only [LutOut.toWord, BitVec.and_append (v := 1), BitVec.and_append (v := 8), BitVec.and_zero, BitVec.zero_and]
  rfl

/-- Every reserved bit of every register reads 0 (R67). -/
theorem Regs.readReg_and_reserved (r : Regs) (reg : Reg) : r.readReg reg &&& ~~~ definedBits reg = 0 := by
  cases reg with
  | cmd => exact BitVec.zero_and
  | id | word | cha | len | groups | outlen => exact BitVec.and_zero
  | chb => exact setWidth_and_high 24 8 r.chb
  | digb => exact setWidth_and_high 25 7 r.digits.l4
  | keep => exact setWidth_and_high 29 3 r.keep
  | lutin => exact setWidth_and_high 24 8 r.lutin
  | status => exact r.status.toWord_and_reserved
  | diga => exact r.digaWord_and_reserved
  | padinfo => exact r.padinfo.toWord_and_reserved
  | lutout => exact r.lutout.toWord_and_reserved

/-- The W1C bits are not reserved (R31). -/
theorem Status.writeOneToClear_and_definedBits (st : Status) (v : Word) :
    st.writeOneToClear (v &&& definedBits .status) = st.writeOneToClear v := by
  simp [Status.writeOneToClear, definedBits]

/-- A byte register ignores the bits above its byte. -/
theorem setWidth_eight_and_low (v : Word) : (v &&& 0x000000FF).setWidth 8 = v.setWidth 8 := by
  rw [BitVec.setWidth_and]
  exact BitVec.and_allOnes

/-- What is written to a reserved bit changes nothing (R67). -/
theorem Regs.writeReg_and_definedBits (r : Regs) (v : Word) (reg : Reg) :
    r.writeReg (v &&& definedBits reg) reg = r.writeReg v reg := by
  cases reg with
  | status => simp only [Regs.writeReg, Status.writeOneToClear_and_definedBits]
  | word | cha | len =>
    have hall : v &&& 0xFFFFFFFF = v := BitVec.and_allOnes
    simp only [Regs.writeReg, definedBits, hall]
  | chb | lutin => simp only [Regs.writeReg, definedBits, setWidth_eight_and_low]
  | id | cmd | diga | digb | keep | padinfo | groups | outlen | lutout => rfl

/-- A legal command word has no bit of 31..7 (R92). -/
theorem and_reserved_of_commandLegal (h : commandLegal w) : w &&& 0xFFFFFF80 = 0 := by
  obtain ⟨hrsv, _⟩ := h
  have hlow : (w.setWidth 7).setWidth 32 = w := by
    apply BitVec.eq_of_toNat_eq
    rw [BitVec.toNat_setWidth_of_le (by decide), BitVec.toNat_setWidth]
    omega
  rw [← hlow]
  exact setWidth_and_high 25 7 _

/-- Settles O14: reads and writes register by register; a reserved bit of CMD makes the word illegal. -/
theorem reservedBitsReadZeroAndIgnoreWrites : Obligations.ReservedBitsReadZeroAndIgnoreWrites := by
  unfold Obligations.ReservedBitsReadZeroAndIgnoreWrites
  refine ⟨fun s reg => ?_, fun s reg v hcmd => ?_, fun s w hw => ?_⟩
  · exact ⟨_, memRead_offset reg s, s.regs.readReg_and_reserved reg⟩
  · refine ⟨_, memWrite_reg reg v s hcmd, ?_⟩
    rw [memWrite_reg _ _ _ hcmd, Regs.writeReg_and_definedBits]
  · have hillegal : ¬ commandLegal w := fun h => hw (and_reserved_of_commandLegal h)
    exact (memWrite_cmd w s).trans (execute_of_not_commandLegal s hillegal)

/-! ### The step that performs an access (R71) -/

theorem step_of_read_illFormed (hp : s.pending = .read addr size :: rest) (hill : accessIllFormed addr size) :
    step s = .fault (.busError addr size) := by
  simp [step, busStep, hp, perform, memRead_illFormed s hill]

theorem step_of_read_offset {reg : Reg} (hp : s.pending = .read reg.offset 4 :: rest) :
    step s = .next (s.complete rest (.readData (s.regs.readReg reg))) := by
  simp [step, busStep, hp, perform]

/-- The write of an access happens in the state in which it is done (R71). -/
theorem step_of_write (hp : s.pending = .write addr size v :: rest) :
    step s = memWrite addr size v (s.complete rest .writeDone) := by
  simp [step, busStep, hp, perform]

/-- A word that decodes runs its command (R92). -/
theorem execute_of_decode {i : Instr} (h : decode w = .ok i) (s : State) : execute w s = exec i s := by
  simp [execute, h]

/-- Settles O6: a pending write is performed by `memWrite`, which runs the decoded command at CMD. -/
theorem stepRunsDecodedCommand : Obligations.StepRunsDecodedCommand := by
  unfold Obligations.StepRunsDecodedCommand
  refine ⟨fun s w i rest hp hdec => ?_, fun s addr v rest hp _ => step_of_write hp⟩
  exact (step_of_write hp).trans ((memWrite_cmd w _).trans (execute_of_decode hdec _))

/-- Settles O8: the recorded word is the register's, which has the table's number. -/
theorem readStepHasNoSideEffect : Obligations.ReadStepHasNoSideEffect := by
  unfold Obligations.ReadStepHasNoSideEffect
  intro s addr rest hp hwell
  obtain ⟨reg, -, rfl⟩ := exists_reg_of_not_illFormed hwell
  rw [step_of_read_offset hp, ← Regs.readReg_toNat, BitVec.ofNat_toNat, BitVec.setWidth_eq]
  rfl

/-- An ill-formed write faults before it takes effect (R63). -/
theorem step_of_write_illFormed (hp : s.pending = .write addr size v :: rest) (hill : accessIllFormed addr size) :
    step s = .fault (.busError addr size) :=
  (step_of_write hp).trans (memWrite_illFormed v _ hill)

/-- Settles O10: of the cases of a step only the bus error faults, and none is refused. -/
theorem stepFaultsExactlyOnBusError : Obligations.StepFaultsExactlyOnBusError := by
  unfold Obligations.StepFaultsExactlyOnBusError
  intro s
  refine ⟨fun addr size => ⟨fun hfault => ?_, ?_⟩, fun r hrefused => ?_⟩
  · rcases step_cases s with ⟨_, hs⟩ | ⟨_, _, _, _, _, _, hs⟩ | ⟨_, _, _, _, _, _, _, hs⟩ | ⟨_, _, hs⟩ |
      ⟨_, _, rest, hp, hnone, hs⟩ <;> cases hs.symm.trans hfault
    exact ⟨rest, busTarget_eq_none_iff_illFormed.mp hnone, hp⟩
  · rintro ⟨rest, hill, hp | ⟨v, hp⟩⟩
    · exact step_of_read_illFormed hp hill
    · exact step_of_write_illFormed hp hill
  · rcases step_cases s with ⟨_, hs⟩ | ⟨_, _, _, _, _, _, hs⟩ | ⟨_, _, _, _, _, _, _, hs⟩ | ⟨_, _, hs⟩ |
      ⟨_, _, _, _, _, hs⟩ <;> cases hs.symm.trans hrefused

/-- A step that faults is answered by an error response (R64; log 3). -/
theorem hostStep_of_fault {f : Fault} (h : step s = .fault f) : hostStep s = .next s.answerBusError := by
  have hbus : busStep s = .fault f := h
  simp [hostStep, hbus]

/-- Where the step does not fault, the host sees that step (log 3). -/
theorem hostStep_eq_step (h : ∀ f, step s ≠ .fault f) : hostStep s = step s := by
  have hbus : ∀ f, busStep s ≠ .fault f := h
  change hostStep s = busStep s
  unfold hostStep
  cases hs : busStep s with
  | next t => rfl
  | fault f => exact absurd hs (hbus f)
  | refused r => rfl

/-- Settles O11: an ill-formed access faults, and the host goes on from the error response. -/
theorem hostGoesOnAfterBusError : Obligations.HostGoesOnAfterBusError := by
  unfold Obligations.HostGoesOnAfterBusError
  refine ⟨fun s addr size rest hill => ⟨fun hp => ?_, fun v hp => ?_⟩, ⟨rfl, rfl⟩, fun s => hostStep_eq_step⟩
  · rw [hostStep_of_fault (step_of_read_illFormed hp hill), State.answerBusError, hp]
    rfl
  · rw [hostStep_of_fault (step_of_write_illFormed hp hill), State.answerBusError, hp]
    rfl

end Sys2Proof.Machine
end

section
/-! PROOFS. The command encoding (spec/30_encoding.md): what the encoder writes, which words decode, what a write to
CMD runs, and the accesses an assembler line stands for. -/

namespace Sys2Proof.Machine

open Sys2Proof.Claims

variable {w : Word} {i : Instr}

/-! ### The fields of a command word (R90, R91) -/

/-- A word is its three fields, RSV above CNT above OP (R90). -/
theorem append_fields (w : Word) : rsvField w ++ cntField w ++ opField w = w := by
  apply BitVec.eq_of_toNat_eq
  rw [toNat_append_eq_add, toNat_append_eq_add, rsvField_toNat, cntField_toNat, opField_toNat]
  omega

/-- The encoder's word as a number: the count above the four bits of the opcode (R90). -/
theorem encode_toNat (i : Instr) : (encode i).toNat = (cntOf i).toNat * 16 + (opOf i).toNat := by
  rw [encode, toNat_append_eq_add, toNat_append_eq_add, BitVec.toNat_ofNat]
  omega

theorem encode_eq_ofNat (i : Instr) : encode i = BitVec.ofNat 32 ((cntOf i).toNat * 16 + (opOf i).toNat) := by
  rw [← encode_toNat, BitVec.ofNat_toNat, BitVec.setWidth_eq]

@[simp] theorem opField_encode (i : Instr) : opField (encode i) = opOf i := by
  apply BitVec.eq_of_toNat_eq
  rw [opField_toNat, encode_toNat]
  omega

@[simp] theorem cntField_encode (i : Instr) : cntField (encode i) = cntOf i := by
  apply BitVec.eq_of_toNat_eq
  rw [cntField_toNat, encode_toNat]
  omega

@[simp] theorem rsvField_encode (i : Instr) : rsvField (encode i) = 0#25 := by
  apply BitVec.eq_of_toNat_eq
  rw [rsvField_toNat, encode_toNat, BitVec.toNat_ofNat]
  omega

/-! ### The opcode map and the counts (R92, R94) -/

theorem instrOfOpcode_opOf (i : Instr) : instrOfOpcode (opOf i) (cntOf i) = some i := by
  cases i <;> rfl

theorem countLegal_opOf (i : Instr) : countLegal (opOf i) (cntOf i) = i.wellFormed := by
  cases i <;> rfl

/-- The command an opcode of the map names with a legal count is well-formed and has that opcode and that count. -/
theorem fields_of_instrOfOpcode : ∀ (op : BitVec 4) (cnt : BitVec 3), ∀ i ∈ instrOfOpcode op cnt,
    countLegal op cnt = true → i.WellFormed ∧ opOf i = op ∧ cntOf i = cnt := by
  decide

/-- The converse of `opcode_count_legal`: the counts `Legal` names are in the opcode's range (R92). -/
theorem countLegal_of_opcode_count : ∀ (op : BitVec 4) (cnt : BitVec 3),
    (op.toNat = 1 ∧ 1 ≤ cnt.toNat ∧ cnt.toNat ≤ 4 ∨ op.toNat = 2 ∧ 1 ≤ cnt.toNat ∧ cnt.toNat ≤ 5 ∨
      (op.toNat = 0 ∨ op.toNat = 3 ∨ op.toNat = 4 ∨ op.toNat = 5 ∨ op.toNat = 6 ∨ op.toNat = 7) ∧
        cnt.toNat = 0) →
    countLegal op cnt = true := by
  decide

/-! ### Which words decode (R92, R94) -/

/-- The converse of `decode_eq_ok`. -/
theorem decode_eq_ok_of_fields (hrsv : rsvField w = 0#25) (hop : instrOfOpcode (opField w) (cntField w) = some i)
    (hcnt : countLegal (opField w) (cntField w) = true) : decode w = .ok i := by
  simp only [decode, hrsv, hop, hcnt, if_true]

/-- The encoder's word decodes to its command, unless the count is out of range (R92). -/
theorem decode_encode (i : Instr) : decode (encode i) =
    if i.WellFormed then .ok i else .error (.countOutOfRange (opOf i) (cntOf i)) := by
  simp only [decode, rsvField_encode, opField_encode, cntField_encode, instrOfOpcode_opOf, countLegal_opOf, if_true]

/-- A word that decodes is the encoder's word of the well-formed command it decodes to. -/
theorem encode_of_decode_eq_ok (h : decode w = .ok i) : i.WellFormed ∧ encode i = w := by
  obtain ⟨hrsv, hop, hcnt⟩ := decode_eq_ok h
  obtain ⟨hwf, hopOf, hcntOf⟩ := fields_of_instrOfOpcode _ _ i hop hcnt
  refine ⟨hwf, ?_⟩
  rw [encode, hopOf, hcntOf, ← hrsv, append_fields]

/-- Settles O3: `decode_encode` for the two clauses on commands, `encode_of_decode_eq_ok` for the one on words. -/
theorem decodeInvertsEncode : Obligations.DecodeInvertsEncode := by
  unfold Obligations.DecodeInvertsEncode
  refine ⟨fun i hwf => ?_, fun w i => encode_of_decode_eq_ok, fun i hwf => ?_⟩
  · rw [decode_encode, if_pos hwf]
  · exact ⟨_, (decode_encode i).trans (if_neg hwf)⟩

/-- Every pair of the list is a well-formed command with its word (R94). -/
theorem encode_of_mem_legalWords : ∀ p ∈ legalWords, p.2.WellFormed ∧ encode p.2 = p.1 := by
  decide

/-- The list names every well-formed command (R94). -/
theorem encode_mem_legalWords (hwf : i.WellFormed) : (encode i, i) ∈ legalWords := by
  cases i with
  | nop | pade | padd | alook | ilook | srst => decide
  | enc nb => revert nb; decide
  | dec nc => revert nc; decide

theorem decode_eq_ok_iff_mem_legalWords : decode w = .ok i ↔ (w, i) ∈ legalWords := by
  constructor
  · intro h
    obtain ⟨hwf, rfl⟩ := encode_of_decode_eq_ok h
    exact encode_mem_legalWords hwf
  · intro h
    obtain ⟨hwf, rfl⟩ : i.WellFormed ∧ encode i = w := encode_of_mem_legalWords _ h
    rw [decode_encode, if_pos hwf]

/-- Settles O2: the listed pairs are the words of the well-formed commands. -/
theorem exactlyFifteenWordsDecode : Obligations.ExactlyFifteenWordsDecode := by
  unfold Obligations.ExactlyFifteenWordsDecode
  exact ⟨fun w i => decode_eq_ok_iff_mem_legalWords, rfl, by decide⟩

/-- Settles O1: each sample is a pair of the list of R94. -/
theorem sampleWordsDecode : Obligations.SampleWordsDecode := by
  unfold Obligations.SampleWordsDecode
  simp only [decode_eq_ok_iff_mem_legalWords]
  decide

/-! ### What a write to CMD runs (R92, R93) -/

/-- The word of `Legal` whose opcode field is `op` decodes to the command of `op`. -/
theorem decode_of_commandLegal (hw : commandLegal w) (op : BitVec 4) (hop : w.toNat % 16 = op.toNat)
    (hi : instrOfOpcode op (cntField w) = some i) : decode w = .ok i := by
  obtain ⟨hrsv, hcount⟩ := hw
  have hopField : opField w = op := BitVec.eq_of_toNat_eq ((opField_toNat w).trans hop)
  rw [← opField_toNat, ← cntField_toNat] at hcount
  exact decode_eq_ok_of_fields (BitVec.eq_of_toNat_eq ((rsvField_toNat w).trans hrsv)) (hopField ▸ hi)
    (countLegal_of_opcode_count _ _ hcount)

theorem memWrite_cmd_of_commandLegal (s : State) (hw : commandLegal w) (op : BitVec 4)
    (hi : instrOfOpcode op (cntField w) = some i) (hop : w.toNat % 16 = op.toNat) :
    memWrite (Reg.offset .cmd) 4 w s = exec i s := by
  rw [memWrite_cmd, execute_of_decode (decode_of_commandLegal hw op hop hi)]

theorem memWrite_cmd_of_not_commandLegal (s : State) (hw : ¬ commandLegal w) :
    memWrite (Reg.offset .cmd) 4 w s = .next (s.raise .illcmd) :=
  (memWrite_cmd w s).trans (execute_of_not_commandLegal s hw)

/-- CNT as the bits 6..4 of the word's number (R90). -/
theorem cntField_eq_ofNat (w : Word) : cntField w = BitVec.ofNat 3 (w.toNat / 16 % 8) := by
  rw [← cntField_toNat, BitVec.ofNat_toNat, BitVec.setWidth_eq]

/-- Settles O4: an illegal word raises ILLCMD; a legal word runs the command of its opcode. -/
theorem commandWriteDispatches : Obligations.CommandWriteDispatches := by
  unfold Obligations.CommandWriteDispatches
  intro w s
  refine ⟨memWrite_cmd_of_not_commandLegal s, fun hw => ?_⟩
  rw [← cntField_eq_ofNat]
  have hrun := fun op i => memWrite_cmd_of_commandLegal (i := i) s hw op
  exact ⟨hrun 0 _ rfl, hrun 1 _ rfl, hrun 2 _ rfl, hrun 3 _ rfl, hrun 4 _ rfl, hrun 5 _ rfl, hrun 6 _ rfl,
    hrun 7 _ rfl⟩

/-- Settles O5: the step performs the write, which raises ILLCMD in the state whose access is done. -/
theorem illegalWordSetsOnlyIllcmd : Obligations.IllegalWordSetsOnlyIllcmd := by
  unfold Obligations.IllegalWordSetsOnlyIllcmd
  intro s w rest hp hw
  exact (step_of_write hp).trans (memWrite_cmd_of_not_commandLegal _ hw)

/-- Settles O36: the illegal branches of `ENC` and `DEC`. -/
theorem countOutOfRangeSetsIllcmd : Obligations.CountOutOfRangeSetsIllcmd := by
  unfold Obligations.CountOutOfRangeSetsIllcmd
  intro s n
  constructor
  · intro hn
    exact execEnc_illegal s n (by omega)
  · intro hn
    exact execDec_illegal s n (by omega)

/-! ### The assembler (R97) -/

/-- A command line is the write of its word to CMD, and is refused where the command has no legal word (R97). -/
theorem assemble_command (i : Instr) :
    AsmLine.assemble (.command i) =
      if i.WellFormed then some [.write 0x04 4 (BitVec.ofNat 32 ((cntOf i).toNat * 16 + (opOf i).toNat))]
      else none := by
  rw [← encode_eq_ofNat]
  rfl

/-- A W1C write with every W1C bit set clears every flag (R31, R97). -/
theorem Status.flag_writeOneToClear_all (st : Status) (f : Flag) : (st.writeOneToClear 0x1D).flag f = false := by
  rw [Status.writeOneToClear_eq_ite]
  cases f <;> rfl

/-- Settles O60: each command line by `assemble_command`, CLRSTAT by the write of all W1C bits. -/
theorem pseudoInstructionsExpand : Obligations.PseudoInstructionsExpand := by
  unfold Obligations.PseudoInstructionsExpand
  refine ⟨assemble_command .nop, fun nb => ?_, fun nc => ?_, assemble_command .pade, assemble_command .padd,
    assemble_command .alook, assemble_command .ilook, assemble_command .srst, rfl, fun w => rfl, fun s => ?_⟩
  · exact (assemble_command (.enc nb)).trans (if_congr (wellFormed_enc_iff nb) rfl rfl)
  · exact (assemble_command (.dec nc)).trans (if_congr (wellFormed_dec_iff nc) rfl rfl)
  · exact ⟨_, memWrite_status 0x1D s, s.regs.status.flag_writeOneToClear_all⟩

end Sys2Proof.Machine
end

section
/-! PROOFS. The alphabet ROM, the inverse ROM and the two lookup commands (spec/40_alphabet.md). -/

namespace Sys2Proof.Machine

/-! ### The two ROMs (R121, R122, R127) -/

/-- The codes R122 lists as invalid. -/
abbrev InvalidCode (n : Nat) : Prop :=
  n ≤ 0x22 ∨ n = 0x27 ∨ n = 0x2C ∨ (0x2E ≤ n ∧ n ≤ 0x2F) ∨ n = 0x5C ∨ n = 0x60 ∨ 0x7E ≤ n

/-- The one look at the table: its codes are the bytes R122 does not list as invalid, in increasing order. Which
codes are valid, how many they are and that they increase all follow from this. -/
theorem alphabet_map_toNat : alphabet.map BitVec.toNat = (List.range 256).filter (fun n => ¬ InvalidCode n) := by
  decide

theorem inAlphabet_iff_not_invalidCode (c : Byte) : inAlphabet c = true ↔ ¬ InvalidCode c.toNat := by
  have hinj : Function.Injective (BitVec.toNat (w := 8)) := fun _ _ => BitVec.eq_of_toNat_eq
  have hlt : c.toNat < 256 := c.isLt
  rw [inAlphabet_iff_mem, ← List.mem_map_of_injective hinj, alphabet_map_toNat, List.mem_filter, List.mem_range,
    decide_eq_true_iff]
  exact and_iff_right hlt

/-- The valid codes below 256, in order, are the codes of the alphabet ROM. -/
theorem range_filter_inAlphabet :
    (List.range 256).filter (fun n => inAlphabet (BitVec.ofNat 8 n)) = alphabet.map BitVec.toNat := by
  rw [alphabet_map_toNat]
  refine List.filter_congr fun n hn => ?_
  have htoNat : (BitVec.ofNat 8 n).toNat = n := Nat.mod_eq_of_lt (List.mem_range.mp hn)
  rw [Bool.eq_iff_iff, inAlphabet_iff_not_invalidCode, htoNat, decide_eq_true_iff]

/-- Exactly 85 codes are valid (R122). -/
theorem length_valid_codes : ((List.range 256).filter (fun n => inAlphabet (BitVec.ofNat 8 n))).length = 85 := by
  rw [range_filter_inAlphabet, List.length_map, alphabet_length]

/-- The other 171 codes are invalid (R122). -/
theorem length_invalid_codes :
    ((List.range 256).filter (fun n => !inAlphabet (BitVec.ofNat 8 n))).length = 171 := by
  have hsum := List.length_eq_length_filter_add (l := List.range 256) (fun n => inAlphabet (BitVec.ofNat 8 n))
  rw [length_valid_codes, List.length_range] at hsum
  omega

theorem getElem?_alphabet {v : Nat} (h : v ≤ 84) : alphabet[v]? = some (alpha v) := by
  have hv : v < alphabet.length := Nat.lt_succ_of_le h
  rw [alpha, List.getD_eq_getElem _ _ hv, List.getElem?_eq_getElem hv]

theorem getElem?_alphabet_eq_some_iff {v : Nat} {c : Byte} : alphabet[v]? = some c ↔ v ≤ 84 ∧ alpha v = c := by
  constructor
  · intro h
    have hv : v < 85 := (List.getElem?_eq_some_iff.mp h).1
    have hle : v ≤ 84 := by omega
    exact ⟨hle, Option.some.inj ((getElem?_alphabet hle).symm.trans h)⟩
  · rintro ⟨hle, rfl⟩
    exact getElem?_alphabet hle

/-- The codes increase strictly with the value (R121). -/
theorem alpha_strictMono {u v : Nat} (huv : u < v) (hv : v ≤ 84) : (alpha u).toNat < (alpha v).toNat := by
  have hsorted : (alphabet.map BitVec.toNat).Pairwise (· < ·) := by
    rw [alphabet_map_toNat]
    exact List.pairwise_lt_range.filter _
  rw [List.pairwise_map, List.pairwise_iff_getElem] at hsorted
  have hvlen : v < alphabet.length := Nat.lt_succ_of_le hv
  have hulen : u < alphabet.length := huv.trans hvlen
  rw [alpha, alpha, List.getD_eq_getElem _ _ hulen, List.getD_eq_getElem _ _ hvlen]
  exact hsorted u v hulen hvlen huv

/-- A byte that is no character of the alphabet has the entry (0, 0) (R122). -/
theorem inverse_of_forall_ne {c : Byte} (h : ∀ v ≤ 84, c ≠ alpha v) : inverse c = ⟨false, 0⟩ := by
  rcases inverse_spec c with ⟨k, hk, _, halpha, _⟩ | ⟨_, he⟩
  · exact absurd halpha.symm (h k hk)
  · exact he

/-- A valid entry holds a digit, and the digit's character is the code (R127). -/
theorem alpha_of_inverse_valid {c : Byte} {v : Digit} (h : inverse c = ⟨true, v⟩) :
    v.toNat ≤ 84 ∧ alpha v.toNat = c := by
  rcases inverse_spec c with ⟨k, hk, _, halpha, he⟩ | ⟨_, he⟩
  · obtain rfl : BitVec.ofNat 7 k = v := (InvEntry.mk.inj (he.symm.trans h)).2
    rw [BitVec.toNat_ofNat, Nat.mod_eq_of_lt (by omega)]
    exact ⟨hk, halpha⟩
  · cases he.symm.trans h

/-- Settles O31: the entries by `inverse_spec`; the listed codes, their numbers and their order by
`alphabet_map_toNat`. -/
theorem inverseRomHoldsTheListedCodes : Obligations.InverseRomHoldsTheListedCodes := by
  unfold Obligations.InverseRomHoldsTheListedCodes
  refine ⟨?entries, fun c => inverse_of_forall_ne, fun c => ?listed, length_valid_codes, length_invalid_codes,
    fun u v => alpha_strictMono⟩
  case entries =>
    rintro c v hv rfl
    exact inverse_alpha v hv
  case listed => rw [← Bool.not_eq_true, inAlphabet_iff_not_invalidCode, not_not]

/-! ### The lookup commands (R123 to R127) -/

/-- The digit `ILOOK` writes to DATA, as a byte (R124). -/
theorem setWidth_digit {v : Nat} (h : v ≤ 84) : (BitVec.ofNat 7 v).setWidth 8 = BitVec.ofNat 8 v :=
  BitVec.setWidth_ofNat_of_le_of_lt (by decide) (by omega)

theorem exec_alook_of_le (s : State) {v : Nat} (hv : s.regs.lutin.toNat = v) (h : v ≤ 84) :
    exec .alook s = .next (s.withRegs { s.regs with lutout := ⟨true, alpha v⟩ }) := by
  subst hv
  exact execAlook_inRange s h

theorem exec_ilook_alpha (s : State) {v : Nat} (hv : s.regs.lutin = alpha v) (h : v ≤ 84) :
    exec .ilook s = .next (s.withRegs { s.regs with lutout := ⟨true, BitVec.ofNat 8 v⟩ }) := by
  have hvalid : inAlphabet s.regs.lutin = true := by rw [hv, inAlphabet_alpha v h]
  have hvalue : (inverse s.regs.lutin).value.setWidth 8 = BitVec.ofNat 8 v := by
    rw [hv, inverse_alpha v h, setWidth_digit h]
  rw [← hvalue]
  exact execIlook_valid s hvalid

/-- Settles O33: `exec_alook_of_le` in range, the RANGE branch above 84. -/
theorem alookReturnsTheCharacter : Obligations.AlookReturnsTheCharacter := by
  unfold Obligations.AlookReturnsTheCharacter
  intro s
  constructor
  · intro v hv hle
    exact ⟨alpha v, getElem?_alphabet hle, exec_alook_of_le s hv hle⟩
  · intro h
    exact execAlook_outOfRange s (by omega)

/-- Settles O34: `exec_ilook_alpha` at the character's position, the INVCHAR branch outside the alphabet. -/
theorem ilookReturnsTheValue : Obligations.IlookReturnsTheValue := by
  unfold Obligations.IlookReturnsTheValue
  intro s
  constructor
  · intro v hv
    obtain ⟨hle, halpha⟩ := getElem?_alphabet_eq_some_iff.mp hv
    exact exec_ilook_alpha s halpha.symm hle
  · intro hout
    exact execIlook_invalid s (mt (inAlphabet_iff_mem _).mp hout)

/-- Settles O32: each lookup writes the operand the other one inverts. -/
theorem lookupsAreInverse : Obligations.LookupsAreInverse := by
  unfold Obligations.LookupsAreInverse
  refine ⟨inverse_alpha, fun c v h => (alpha_of_inverse_valid h).2, fun s hle => ?alookFirst,
    fun s hvalid => ?ilookFirst⟩
  case alookFirst =>
    refine ⟨_, _, exec_alook_of_le s rfl hle, exec_ilook_alpha _ rfl hle, ?_⟩
    rw [State.withRegs_regs, BitVec.ofNat_toNat, BitVec.setWidth_eq]
  case ilookFirst =>
    obtain ⟨v, hv⟩ := List.getElem?_of_mem ((inAlphabet_iff_mem _).mp hvalid)
    obtain ⟨hle, halpha⟩ := getElem?_alphabet_eq_some_iff.mp hv
    have hdata : (BitVec.ofNat 8 v).toNat = v := Nat.mod_eq_of_lt (by omega)
    refine ⟨_, _, exec_ilook_alpha s halpha.symm hle, exec_alook_of_le _ hdata hle, ?_⟩
    rw [State.withRegs_regs, halpha]

end Sys2Proof.Machine
end

section
/-! PROOFS. The group encoder (spec/41_encoder.md): the zero fill, the digits and characters `ENC` writes, the digit
extractors, and the statements that follow from them. -/

namespace Sys2Proof.Machine

open Sys2Proof.Claims

/-! ### The zero fill (R150, R151) -/

/-- Zero filling keeps the lanes below the count and clears the others. The mask's lowest one is bit `8 * (4 - nb)`,
where the last lane kept begins. -/
theorem Regs.byteLane_encGroup (r : Regs) (nb : Nat) (j : Fin 4) :
    byteLane (r.encGroup nb) j = if j.val < nb then byteLane r.word j else 0 := by
  rw [Regs.encGroup, zeroFillMask, and_ones_shiftLeft]
  apply BitVec.eq_of_getLsbD_eq
  intro i hi
  by_cases hj : j.val < nb
  · have hkept : ¬ 24 - 8 * j.val + i < 8 * (4 - nb) := by omega
    have hbit : 24 - 8 * j.val + i < 32 := by omega
    have hsplit : 8 * (4 - nb) + (24 - 8 * j.val + i - 8 * (4 - nb)) = 24 - 8 * j.val + i := by omega
    simp [byteLane, hj, hkept, hbit, hsplit]
  · have hcleared : 24 - 8 * j.val + i < 8 * (4 - nb) := by omega
    simp [byteLane, hj, hcleared]

/-- A full group has no lane to fill. -/
theorem Regs.encGroup_four (r : Regs) : r.encGroup 4 = r.word := BitVec.and_allOnes

/-! ### The digits (R153, R154, R156, R157) -/

/-- A word is below 85^5, so its five digits lose nothing (R153). -/
theorem word_lt_radix_pow (w : Word) : w.toNat < 85 ^ 5 := w.isLt.trans (by decide)

theorem digitSum_extractDigits {n : Nat} (h : n < 85 ^ 5) : digitSum (extractDigits n) = n := by
  simp only [digitSum, extractDigits_get_toNat]
  exact (Fin.sum_univ_five _).trans (by simpa using digitOf_sum n h)

/-- The first digit of a word is at most 82 (R156). -/
theorem digitOf_zero_le (w : Word) : digitOf w.toNat 0 ≤ 82 := by
  have hw : w.toNat < 2 ^ 32 := w.isLt
  simp only [digitOf, Fin.val_zero]
  omega

/-- Dividing by 85 again and again divides by its powers (R157). -/
theorem dividerDigits_eq_extractDigits (n : Nat) : dividerDigits n = extractDigits n := by
  simp only [dividerDigits, Nat.div_div_eq_div_mul]
  simp [extractDigits, Lanes.ofFn, digitOf]

theorem extractorDigits_eq_extractDigits (e : Extractor) (n : Nat) : extractorDigits e n = extractDigits n := by
  cases e with
  | divider => exact dividerDigits_eq_extractDigits n
  | lut => rfl

/-- Settles O38: both extractors are R154's formula, and five divisions by 85 are one by 85^5. -/
theorem extractorsGiveTheSameDigits : Obligations.ExtractorsGiveTheSameDigits := by
  unfold Obligations.ExtractorsGiveTheSameDigits
  intro e n hn
  constructor
  · intro i
    rw [extractorDigits_eq_extractDigits, extractDigits_get_toNat, digitOf]
  · omega

/-! ### What `ENC` writes (R152, R154, R156, R158) -/

section afterEnc

variable (r : Regs) (nb : Nat)

theorem Regs.afterEnc_digits_toNat (i : Fin 5) :
    ((r.afterEnc nb).digits.get i).toNat = digitOf (r.afterEnc nb).word.toNat i := by
  rw [Regs.afterEnc_digits, Regs.afterEnc_word, extractDigits_get_toNat]

theorem Regs.afterEnc_digits_le (i : Fin 5) : ((r.afterEnc nb).digits.get i).toNat ≤ 84 := by
  rw [Regs.afterEnc_digits_toNat]
  exact digitOf_le _ i

/-- Each character is the alphabet's of its digit. -/
theorem Regs.afterEnc_chars_get (i : Fin 5) :
    (r.afterEnc nb).chars.get i = alpha ((r.afterEnc nb).digits.get i).toNat := by
  rw [Regs.afterEnc_chars, Regs.afterEnc_digits, Lanes.get_map]

theorem Regs.afterEnc_word_eq_digitSum :
    (r.afterEnc nb).word.toNat = digitSum (r.afterEnc nb).digits := by
  rw [Regs.afterEnc_digits, Regs.afterEnc_word, digitSum_extractDigits (word_lt_radix_pow _)]

/-- The inverse ROM reads the digits back from the characters (R127). -/
theorem Regs.lookupDigits_afterEnc_chars :
    lookupDigits (r.afterEnc nb).chars = (r.afterEnc nb).digits := by
  apply Lanes.ext_get
  intro i
  rw [lookupDigits_get, Regs.afterEnc_chars_get, inverse_alpha _ (r.afterEnc_digits_le nb i), BitVec.ofNat_toNat,
    BitVec.setWidth_eq]

end afterEnc

/-- Equal digits come only from equal words, since the digits spell the word (R158). -/
theorem Regs.afterEnc_word_eq_of_digits_eq {r r' : Regs} {nb nb' : Nat}
    (h : (r.afterEnc nb).digits = (r'.afterEnc nb').digits) : (r.afterEnc nb).word = (r'.afterEnc nb').word := by
  apply BitVec.eq_of_toNat_eq
  rw [Regs.afterEnc_word_eq_digitSum, Regs.afterEnc_word_eq_digitSum, h]

/-- Equal characters come only from equal digits (R127). -/
theorem Regs.afterEnc_digits_eq_of_chars_eq {r r' : Regs} {nb nb' : Nat}
    (h : (r.afterEnc nb).chars = (r'.afterEnc nb').chars) :
    (r.afterEnc nb).digits = (r'.afterEnc nb').digits := by
  rw [← Regs.lookupDigits_afterEnc_chars, h, Regs.lookupDigits_afterEnc_chars]

/-- The first character is below the last two of the alphabet, because its digit is at most 82 (R156). -/
theorem Regs.afterEnc_first_char_lt (r : Regs) (nb : Nat) : ((r.afterEnc nb).chars.get 0).toNat < 0x7C := by
  have hdigit : ((r.afterEnc nb).digits.get 0).toNat ≤ 82 := by
    rw [Regs.afterEnc_digits_toNat]
    exact digitOf_zero_le _
  have hlt := alpha_strictMono (v := 83) (Nat.lt_succ_of_le hdigit) (by decide)
  rwa [← Regs.afterEnc_chars_get] at hlt

/-- Settles O35: the lanes by `byteLane_encGroup`, the digits and characters by what `ENC` writes. -/
theorem encEncodesTheZeroFilledWord : Obligations.EncEncodesTheZeroFilledWord := by
  unfold Obligations.EncEncodesTheZeroFilledWord
  intro s nb h1 h4
  refine ⟨_, execEnc_legal s nb ⟨h1, h4⟩, s.regs.byteLane_encGroup nb.toNat, ?full, fun i => ?lane,
    s.regs.afterEnc_word_eq_digitSum nb.toNat, ?keep, rfl⟩
  case full =>
    rintro rfl
    exact s.regs.encGroup_four
  case lane =>
    have hle := s.regs.afterEnc_digits_le nb.toNat i
    refine ⟨s.regs.afterEnc_digits_toNat nb.toNat i, hle, ?_⟩
    rw [State.withRegs_regs, Regs.afterEnc_chars_get]
    exact getElem?_alphabet hle
  case keep =>
    rw [State.withRegs_regs, Regs.afterEnc_keep, BitVec.toNat_ofNat]
    omega

/-- Settles O37: the characters are the alphabet's of digits, the first one's digit is bounded, and the largest word
is computed. -/
theorem encOutputStaysInTheAlphabet : Obligations.EncOutputStaysInTheAlphabet := by
  unfold Obligations.EncOutputStaysInTheAlphabet
  intro s nb h1 h4
  refine ⟨_, execEnc_legal s nb ⟨h1, h4⟩, fun i => ?alphabet, ?firstDigit, ?notBar, ?notBrace, ?largest⟩
  all_goals rw [State.withRegs_regs]
  case alphabet =>
    rw [Regs.afterEnc_chars_get]
    exact inAlphabet_alpha _ (s.regs.afterEnc_digits_le nb.toNat i)
  case firstDigit =>
    rw [Regs.afterEnc_digits_toNat]
    exact digitOf_zero_le _
  case notBar | notBrace =>
    intro h
    have hlt := s.regs.afterEnc_first_char_lt nb.toNat
    rw [h] at hlt
    exact absurd hlt (by decide)
  case largest =>
    intro hword
    rw [Regs.afterEnc_word] at hword
    rw [Regs.afterEnc_digits, Regs.afterEnc_chars, hword]
    decide

/-- Settles O39: the digits spell the word, and the characters determine the digits. -/
theorem encIsInjective : Obligations.EncIsInjective := by
  unfold Obligations.EncIsInjective
  intro s s' nb nb' hnb hnb'
  rw [wellFormed_enc_iff] at hnb hnb'
  refine ⟨_, _, execEnc_legal s nb hnb, execEnc_legal s' nb' hnb', Regs.afterEnc_word_eq_of_digits_eq, ?chars,
    s.regs.afterEnc_word_eq_digitSum nb.toNat⟩
  case chars =>
    intro hchars
    exact Regs.afterEnc_word_eq_of_digits_eq (Regs.afterEnc_digits_eq_of_chars_eq hchars)

end Sys2Proof.Machine
end

section
/-! PROOFS. The group decoder (spec/42_decoder.md): the padded characters, their digits and value, the two outcomes
of `DEC`, and what it recovers of a group that `ENC` encoded. -/

namespace Sys2Proof.Machine

open Sys2Proof.Claims

/-! ### The padded group and its value (R182, R187) -/

/-- The padding character has the value 84 (R187). -/
theorem inverse_padChar : inverse padChar = ⟨true, 84⟩ := inverse_alpha 84 le_rfl

theorem accumulate_eq_digitSum (d : Lanes Digit) : accumulate d = digitSum d := by
  simp [accumulate, digitSum, Fin.sum_univ_five, Lanes.get]

section decodedGroup

variable (s : State) (nc : Nat)

theorem decodedChar_of_le {i : Fin 5} (h : nc ≤ i.val) : decodedChar s nc i = padChar := if_neg (Nat.not_lt.mpr h)

theorem Regs.afterDec_chars_get (i : Fin 5) : (s.regs.afterDec nc).chars.get i = decodedChar s nc i := by
  rw [Regs.afterDec_chars, padChars_get]
  rfl

theorem Regs.afterDec_digits_get (i : Fin 5) :
    (s.regs.afterDec nc).digits.get i = (inverse (decodedChar s nc i)).value := by
  rw [Regs.afterDec_digits, lookupDigits_get, ← Regs.afterDec_chars, Regs.afterDec_chars_get]

theorem digitSum_afterDec_digits : digitSum (s.regs.afterDec nc).digits = decodedValue s nc := by
  simp only [digitSum, decodedValue, Regs.afterDec_digits_get]

/-- The model's value is the sum over the padded characters (R182). -/
theorem Regs.decValue_eq_decodedValue : s.regs.decValue nc = decodedValue s nc := by
  rw [Regs.decValue, accumulate_eq_digitSum, ← Regs.afterDec_digits, digitSum_afterDec_digits]

end decodedGroup

/-- Larger digits spell a larger value. -/
theorem digitSum_mono {d d' : Lanes Digit} (h : ∀ i, (d.get i).toNat ≤ (d'.get i).toNat) :
    digitSum d ≤ digitSum d' :=
  Finset.sum_le_sum fun i _ => Nat.mul_le_mul_left _ (h i)

/-- Only five digits 84 reach the largest value, 85^5 - 1 (R182). -/
theorem digitSum_eq_max_iff {d : Lanes Digit} (h : ∀ i, (d.get i).toNat ≤ 84) :
    digitSum d = 4437053124 ↔ ∀ i : Fin 5, d.get i = 84 := by
  have hmax : 4437053124 = ∑ i : Fin 5, 85 ^ (4 - i.val) * 84 := by decide
  rw [hmax, digitSum, Finset.sum_eq_sum_iff_of_le fun i _ => Nat.mul_le_mul_left _ (h i)]
  refine forall_congr' fun i => ?_
  rw [Nat.mul_right_inj (by positivity), BitVec.toNat_eq]
  exact forall_prop_of_true (Finset.mem_univ i)

/-! ### The outcomes of `DEC` (R180, R184) -/

theorem execDec_of_realLanesValid {s : State} {nc : BitVec 3} (h1 : 1 ≤ nc.toNat) (h5 : nc.toNat ≤ 5)
    (hv : realLanesValid s nc.toNat) : execDec nc s = .next (s.withRegs (s.regs.afterDec nc.toNat)) :=
  execDec_valid s nc ⟨h1, h5⟩ ((firstInvalid_eq_none _ _).mpr hv)

/-- The notice WIDE in STATUS (R186). -/
theorem Status.noteWide_eq (st : Status) (n : Nat) :
    st.noteWide n = { st with wide := st.wide || decide (2 ^ 32 ≤ n) } := by
  unfold Status.noteWide
  split
  next h => rw [decide_eq_true h, Bool.or_true, Status.setSticky]
  next h => rw [decide_eq_false h, Bool.or_false]

/-- Byte lane `j` of a value mod 2^32 is the shifted and masked value (R183). -/
theorem byteLane_ofNat_toNat (n : Nat) (j : Fin 4) :
    (byteLane (BitVec.ofNat 32 n) j).toNat = (n >>> (8 * (3 - j.val))) &&& 0xFF := by
  rw [byteLane_toNat, BitVec.toNat_ofNat, Nat.shiftRight_eq_div_pow, Nat.and_two_pow_sub_one_eq_mod _ 8]
  fin_cases j <;> simp <;> omega

theorem Regs.afterDec_keep_toNat (r : Regs) {nc : Nat} (h : nc ≤ 5) : (r.afterDec nc).keep.toNat = nc - 1 := by
  rw [Regs.afterDec_keep, BitVec.toNat_ofNat]
  omega

/-- Settles O40: field by field, what `DEC` leaves when the real lanes are valid. -/
theorem decDecodesThePaddedGroup : Obligations.DecDecodesThePaddedGroup := by
  unfold Obligations.DecDecodesThePaddedGroup
  intro s nc h1 h5 hv
  refine ⟨_, execDec_of_realLanesValid h1 h5 hv, Regs.afterDec_chars_get s nc.toNat,
    Regs.afterDec_digits_get s nc.toNat, fun i hi => ?padding, ?word, fun j => ?byte,
    s.regs.afterDec_keep_toNat h5, ?status, Status.noteWide_err _ _, rfl⟩
  all_goals rw [State.withRegs_regs]
  case padding => rw [Regs.afterDec_digits_get, decodedChar_of_le s _ hi, inverse_padChar]
  case word => rw [Regs.afterDec_word, BitVec.toNat_ofNat, Regs.decValue_eq_decodedValue]
  case byte => rw [Regs.afterDec_word, byteLane_ofNat_toNat, Regs.decValue_eq_decodedValue]
  case status => rw [Regs.afterDec_status, Status.noteWide_eq, Regs.decValue_eq_decodedValue]

/-- Settles O41: the digits `DEC` writes spell the value, and each is at most 84. -/
theorem decValueFitsThirtyThreeBits : Obligations.DecValueFitsThirtyThreeBits := by
  unfold Obligations.DecValueFitsThirtyThreeBits
  intro s nc h1 h5 hv
  have hsum := digitSum_afterDec_digits s nc.toNat
  refine ⟨_, execDec_of_realLanesValid h1 h5 hv, hsum, ?bound, ?largest⟩
  case bound =>
    rw [← Regs.decValue_eq_decodedValue]
    exact Nat.le_of_lt_succ (s.regs.decValue_lt nc.toNat)
  case largest =>
    rw [← hsum]
    exact digitSum_eq_max_iff ((Regs.digitsLegal_iff _).mp (s.regs.afterDec_digitsLegal nc.toNat))

/-- Settles O42: the lowest invalid real lane is the one `DEC` finds. -/
theorem decReportsTheLowestInvalidLane : Obligations.DecReportsTheLowestInvalidLane := by
  unfold Obligations.DecReportsTheLowestInvalidLane
  intro s nc i h1 h5 hi hbad hlow
  exact execDec_invalid s nc ⟨h1, h5⟩ i ((firstInvalid_eq_some _ _ _).mpr ⟨hi, hbad, hlow⟩)

/-! ### The lanes `DEC` never reads (R181) -/

section realLanes

variable {nc : Nat} {c c' : Lanes Byte}

theorem firstInvalid_congr (h : ∀ i : Fin 5, i.val < nc → c'.get i = c.get i) :
    firstInvalid nc c' = firstInvalid nc c := by
  unfold firstInvalid
  congr 1
  funext i
  by_cases hi : i.val < nc
  · rw [h i hi]
  · rw [decide_eq_false hi, Bool.false_and, Bool.false_and]

theorem padChars_congr (h : ∀ i : Fin 5, i.val < nc → c'.get i = c.get i) : padChars nc c' = padChars nc c := by
  apply Lanes.ext_get
  intro i
  rw [padChars_get, padChars_get]
  exact ite_congr rfl (h i) fun _ => rfl

end realLanes

/-- A valid `DEC` writes every character lane, so the registers it leaves depend on the padded characters alone. -/
theorem Regs.afterDec_with_chars {r : Regs} {nc : Nat} {cha : Word} {chb : Byte}
    (h : padChars nc (Regs.chars { r with cha := cha, chb := chb }) = padChars nc r.chars) :
    Regs.afterDec { r with cha := cha, chb := chb } nc = r.afterDec nc := by
  simp only [Regs.afterDec, Regs.decValue, h, Regs.setChars]

/-- Settles O43: both states find the same lane, or none and the same padded characters. -/
theorem decIgnoresThePaddingLanes : Obligations.DecIgnoresThePaddingLanes := by
  unfold Obligations.DecIgnoresThePaddingLanes
  refine ⟨inverse_padChar, fun s nc cha chb h1 h5 hagree => ?_⟩
  have hfirst := firstInvalid_congr hagree
  cases hf : firstInvalid nc.toNat s.regs.chars with
  | none =>
    have hv : realLanesValid s nc.toNat := (firstInvalid_eq_none _ _).mp hf
    refine ⟨_, _, execDec_valid s nc ⟨h1, h5⟩ hf, execDec_valid _ nc ⟨h1, h5⟩ (hfirst.trans hf), fun _ => ?_,
      fun hn => absurd hv hn⟩
    rw [State.withRegs_regs, State.withRegs_withRegs, Regs.afterDec_with_chars (padChars_congr hagree)]
  | some i =>
    have hn : ¬ realLanesValid s nc.toNat := fun hv => by simp [(firstInvalid_eq_none _ _).mpr hv] at hf
    exact ⟨_, _, execDec_invalid s nc ⟨h1, h5⟩ i hf, execDec_invalid _ nc ⟨h1, h5⟩ i (hfirst.trans hf),
      fun hv => absurd hv hn, fun _ => rfl⟩

/-! ### One-character groups (R189) -/

theorem Regs.afterEnc_keep_toNat (r : Regs) {nb : Nat} (h : nb ≤ 4) : (r.afterEnc nb).keep.toNat = nb + 1 := by
  rw [Regs.afterEnc_keep, BitVec.toNat_ofNat]
  omega

/-- `encode` adds one character for each group of four bytes or less (R211, R261). -/
theorem documentEncode_length (b : List Byte) : (documentEncode b).length = b.length + (b.length + 3) / 4 := by
  have hpad := documentEncPad_eq b.length
  simp only [documentEncode, withoutLast, List.length_take, documentEncodeGroups_length, List.length_append,
    List.length_replicate]
  omega

/-- Settles O44: KEEP after either outcome of `DEC 1`, KEEP after `ENC`, and the length of `encode`. -/
theorem oneCharacterGroupKeepsNoByte : Obligations.OneCharacterGroupKeepsNoByte := by
  unfold Obligations.OneCharacterGroupKeepsNoByte
  refine ⟨fun s => ?decOne, fun s nb hnb => ?enc, fun b => ?document⟩
  case decOne =>
    cases hf : firstInvalid 1 s.regs.chars with
    | none =>
      have hvalid : inAlphabet (s.regs.chars.get 0) = true := (firstInvalid_eq_none _ _).mp hf 0 Nat.one_pos
      exact ⟨_, execDec_valid s 1 (by decide) hf, rfl, fun hbad => absurd hvalid (by simp [hbad])⟩
    | some i => exact ⟨_, execDec_invalid s 1 (by decide) i hf, rfl, fun _ => rfl⟩
  case enc =>
    rw [wellFormed_enc_iff] at hnb
    refine ⟨_, execEnc_legal s nb hnb, ?_⟩
    rw [State.withRegs_regs, Regs.afterEnc_keep_toNat _ hnb.2]
    omega
  case document =>
    rw [documentEncode_length]
    omega

/-! ### Decoding what `ENC` wrote (R188) -/

/-- The digits with every lane from `nc` up at 84: what decoding the first `nc` characters gives (R187). -/
def padDigits (nc : Nat) (d : Lanes Digit) : Lanes Digit := Lanes.ofFn fun i => if i.val < nc then d.get i else 84

/-- The value of the first `nc` digits alone: R188's `P`. -/
def prefixSum (nc : Nat) (d : Lanes Digit) : Nat :=
  ∑ i : Fin 5, if i.val < nc then 85 ^ (4 - i.val) * (d.get i).toNat else 0

@[simp] theorem padDigits_get (nc : Nat) (d : Lanes Digit) (i : Fin 5) :
    (padDigits nc d).get i = if i.val < nc then d.get i else 84 := Lanes.get_ofFn _ i

/-- The padding lanes, all 84, add 85^p - 1 for the `p` lanes they fill (R188). -/
theorem sum_padding_lanes :
    ∀ nc ≤ 5, (∑ i : Fin 5, if i.val < nc then 0 else 85 ^ (4 - i.val) * 84) = 85 ^ (5 - nc) - 1 := by
  decide

theorem digitSum_padDigits {nc : Nat} (h : nc ≤ 5) (d : Lanes Digit) :
    digitSum (padDigits nc d) = prefixSum nc d + (85 ^ (5 - nc) - 1) := by
  rw [← sum_padding_lanes nc h, prefixSum, digitSum, ← Finset.sum_add_distrib]
  refine Finset.sum_congr rfl fun i _ => ?_
  rw [padDigits_get]
  split <;> simp

theorem prefixSum_le_digitSum (nc : Nat) (d : Lanes Digit) : prefixSum nc d ≤ digitSum d := by
  refine Finset.sum_le_sum fun i _ => ?_
  split
  · exact le_rfl
  · exact Nat.zero_le _

theorem digitSum_le_digitSum_padDigits (nc : Nat) {d : Lanes Digit} (h : ∀ i, (d.get i).toNat ≤ 84) :
    digitSum d ≤ digitSum (padDigits nc d) := by
  refine digitSum_mono fun i => ?_
  rw [padDigits_get]
  split
  · exact le_rfl
  · exact h i

/-- A zero-filled word leaves room below 2^32 for every value of the bytes it dropped (R188). -/
theorem Regs.encGroup_add_le (r : Regs) (nb : Nat) : (r.encGroup nb).toNat + 2 ^ (8 * (4 - nb)) ≤ 2 ^ 32 := by
  obtain ⟨c, hc⟩ : 2 ^ (8 * (4 - nb)) ∣ 2 ^ 32 := Nat.pow_dvd_pow 2 (by omega)
  have hlt : r.word.toNat / 2 ^ (8 * (4 - nb)) < c := Nat.div_lt_of_lt_mul (hc ▸ r.word.isLt)
  rw [Regs.encGroup_toNat, hc, ← Nat.succ_mul, Nat.mul_comm _ c]
  exact Nat.mul_le_mul_right _ hlt

/-- A word at a zero-filled word or above it by less than the dropped bytes can hold has the same real bytes. -/
theorem Regs.encGroup_eq_of_le_of_lt {r r' : Regs} {nb : Nat} (hle : (r.encGroup nb).toNat ≤ r'.word.toNat)
    (hlt : r'.word.toNat < (r.encGroup nb).toNat + 2 ^ (8 * (4 - nb))) : r'.encGroup nb = r.encGroup nb := by
  apply BitVec.eq_of_toNat_eq
  rw [Regs.encGroup_toNat] at hle hlt
  rw [← Nat.succ_mul] at hlt
  rw [Regs.encGroup_toNat, Regs.encGroup_toNat, Nat.div_eq_of_lt_le hle hlt]

theorem Regs.byteLane_eq_of_encGroup_eq {r r' : Regs} {nb : Nat} (h : r'.encGroup nb = r.encGroup nb) {j : Fin 4}
    (hj : j.val < nb) : byteLane r'.word j = byteLane r.word j := by
  have hlane := congrArg (byteLane · j) h
  simpa only [Regs.byteLane_encGroup, if_pos hj] using hlane

section recover

variable {r : Regs} {nb : Nat} {s' : State}
  (hchars : ∀ i : Fin 5, i.val < nb + 1 → s'.regs.chars.get i = (r.afterEnc nb).chars.get i)

include hchars

theorem realLanesValid_of_afterEnc_chars : realLanesValid s' (nb + 1) := by
  intro i hi
  rw [hchars i hi, Regs.afterEnc_chars_get]
  exact inAlphabet_alpha _ (r.afterEnc_digits_le nb i)

/-- Decoding the kept characters gives the kept digits, padded (R188). -/
theorem afterDec_digits_eq_padDigits :
    (s'.regs.afterDec (nb + 1)).digits = padDigits (nb + 1) (r.afterEnc nb).digits := by
  apply Lanes.ext_get
  intro i
  rw [Regs.afterDec_digits, lookupDigits_get, padChars_get, padDigits_get]
  split
  next hi => rw [hchars i hi, ← lookupDigits_get, Regs.lookupDigits_afterEnc_chars]
  next => rw [inverse_padChar]

theorem decodedValue_eq_digitSum_padDigits :
    decodedValue s' (nb + 1) = digitSum (padDigits (nb + 1) (r.afterEnc nb).digits) := by
  rw [← digitSum_afterDec_digits, afterDec_digits_eq_padDigits hchars]

theorem decodedValue_eq_prefixSum_add (h4 : nb ≤ 4) :
    decodedValue s' (nb + 1) = prefixSum (nb + 1) (r.afterEnc nb).digits + (85 ^ (4 - nb) - 1) := by
  rw [decodedValue_eq_digitSum_padDigits hchars, digitSum_padDigits (by omega), Nat.add_sub_add_right 4 1 nb]

theorem encGroup_le_decodedValue : (r.encGroup nb).toNat ≤ decodedValue s' (nb + 1) := by
  rw [decodedValue_eq_digitSum_padDigits hchars, ← Regs.afterEnc_word, Regs.afterEnc_word_eq_digitSum]
  exact digitSum_le_digitSum_padDigits _ (r.afterEnc_digits_le nb)

theorem decodedValue_le_encGroup_add (h4 : nb ≤ 4) :
    decodedValue s' (nb + 1) ≤ (r.encGroup nb).toNat + (85 ^ (4 - nb) - 1) := by
  rw [decodedValue_eq_prefixSum_add hchars h4, ← Regs.afterEnc_word, Regs.afterEnc_word_eq_digitSum]
  exact Nat.add_le_add_right (prefixSum_le_digitSum _ _) _

/-- The digits dropped are worth less than the bytes dropped (R188). -/
theorem decodedValue_lt_encGroup_add (h4 : nb ≤ 4) :
    decodedValue s' (nb + 1) < (r.encGroup nb).toNat + 2 ^ (8 * (4 - nb)) := by
  have hle := decodedValue_le_encGroup_add hchars h4
  have hpos : 0 < 85 ^ (4 - nb) := by positivity
  have hpow : 85 ^ (4 - nb) ≤ 2 ^ (8 * (4 - nb)) := by
    rw [Nat.pow_mul]
    exact Nat.pow_le_pow_left (by decide) _
  omega

theorem decodedValue_lt_word_size (h4 : nb ≤ 4) : decodedValue s' (nb + 1) < 2 ^ 32 :=
  (decodedValue_lt_encGroup_add hchars h4).trans_le (r.encGroup_add_le nb)

theorem afterDec_word_toNat_eq_decodedValue (h4 : nb ≤ 4) :
    (s'.regs.afterDec (nb + 1)).word.toNat = decodedValue s' (nb + 1) := by
  rw [Regs.afterDec_word, Regs.decValue_eq_decodedValue, BitVec.toNat_ofNat,
    Nat.mod_eq_of_lt (decodedValue_lt_word_size hchars h4)]

/-- The decoded word has the real bytes of the word that was encoded (R188). -/
theorem encGroup_afterDec_eq (h4 : nb ≤ 4) : (s'.regs.afterDec (nb + 1)).encGroup nb = r.encGroup nb := by
  apply Regs.encGroup_eq_of_le_of_lt
  · rw [afterDec_word_toNat_eq_decodedValue hchars h4]
    exact encGroup_le_decodedValue hchars
  · rw [afterDec_word_toNat_eq_decodedValue hchars h4]
    exact decodedValue_lt_encGroup_add hchars h4

/-- What `ENC` wrote decodes without the notice WIDE (R186, R188). -/
theorem afterDec_status_eq (h4 : nb ≤ 4) : (s'.regs.afterDec (nb + 1)).status = s'.regs.status := by
  rw [Regs.afterDec_status, Regs.decValue_eq_decodedValue]
  exact if_neg (Nat.not_le.mpr (decodedValue_lt_word_size hchars h4))

end recover

/-- Settles O45: the decoded value is the kept digits padded with 84, which stays within the bytes dropped. -/
theorem decRecoversTheEncodedBytes : Obligations.DecRecoversTheEncodedBytes := by
  unfold Obligations.DecRecoversTheEncodedBytes
  intro s s' nb hnb
  rw [wellFormed_enc_iff] at hnb
  refine ⟨_, execEnc_legal s nb hnb, fun hchars => ?_⟩
  rw [State.withRegs_regs] at hchars ⊢
  have h4 : nb.toNat ≤ 4 := hnb.2
  have hcount : (nb + 1).toNat = nb.toNat + 1 := BitVec.toNat_add_of_lt (by simp; omega)
  have hvalid : realLanesValid s' (nb + 1).toNat := hcount ▸ realLanesValid_of_afterEnc_chars hchars
  have hword := encGroup_afterDec_eq hchars h4
  refine ⟨_, execDec_of_realLanesValid (by omega) (by omega) hvalid, decodedValue_eq_prefixSum_add hchars h4,
    encGroup_le_decodedValue hchars, decodedValue_le_encGroup_add hchars h4, fun j hj => ?bytes, ?full, ?status,
    ?keep⟩
  all_goals rw [State.withRegs_regs, hcount]
  case bytes => exact Regs.byteLane_eq_of_encGroup_eq hword hj
  case full =>
    rintro rfl
    rwa [show (4 : BitVec 3).toNat = 4 from rfl, Regs.encGroup_four, Regs.encGroup_four] at hword
  case status => exact afterDec_status_eq hchars h4
  case keep => rw [Regs.afterDec_keep, Nat.add_sub_cancel, BitVec.ofNat_toNat, BitVec.setWidth_eq]

end Sys2Proof.Machine
end

section
/-! PROOFS. The padding calculator (spec/43_padding.md): its formulas on naturals, what `PADE` and `PADD` leave in the
registers, and how the two agree. -/

namespace Sys2Proof.Machine

/-! ### The formulas (R211, R213) -/

/-- R211: the pad rounds the length up to whole groups of four. -/
theorem encPad_eq (l : Nat) : encPad l = 4 * encGroups l - l := by
  unfold encPad encGroups
  split <;> omega

theorem encGroups_eq (l : Nat) : encGroups l = (l + 3) / 4 := by
  unfold encGroups
  split <;> omega

/-- R211: the encoder adds one character for each group. -/
theorem encOut_eq (l : Nat) : encOut l = l + (l + 3) / 4 := by
  rw [encOut, encPad_eq, encGroups_eq]
  omega

theorem encPad_lt (l : Nat) : encPad l < 4 := Nat.mod_lt _ (by decide)

theorem encOut_lt {l : Nat} (h : l < 2 ^ 32) : encOut l < 2 ^ 33 := by
  rw [encOut_eq]
  omega

/-- R213: the pad rounds the length up to whole groups of five. -/
theorem decPad_eq (m : Nat) : decPad m = 5 * decGroups m - m := by
  unfold decPad decGroups
  split <;> omega

theorem decGroups_eq (m : Nat) : decGroups m = (m + 4) / 5 := by
  unfold decGroups
  split <;> omega

/-- R213: the decoder removes one character of each group. -/
theorem decOut_eq (m : Nat) : decOut m = m - (m + 4) / 5 := by
  rw [decOut, decPad_eq, decGroups_eq]
  omega

theorem decPad_lt (m : Nat) : decPad m < 5 := Nat.mod_lt _ (by decide)

theorem decOut_le (m : Nat) : decOut m ≤ m := (decOut_eq m).trans_le (Nat.sub_le _ _)

/-! ### The formulas on an encoded length (R215, R216) -/

theorem decGroups_encOut (l : Nat) : decGroups (encOut l) = encGroups l := by
  rw [decGroups_eq, encOut_eq, encGroups_eq]
  omega

theorem decPad_encOut (l : Nat) : decPad (encOut l) = encPad l := by
  rw [decPad_eq, decGroups_encOut, encPad_eq, encOut_eq, encGroups_eq]
  omega

theorem decOut_encOut (l : Nat) : decOut (encOut l) = l := by
  rw [decOut_eq, encOut_eq]
  omega

/-- A last group of `s` bytes, 1 to 4, has `s + 1` characters, so an encoded length leaves 0, 2, 3 or 4 (R215). -/
theorem encOut_mod_five_ne_one (l : Nat) : encOut l % 5 ≠ 1 := by
  rw [encOut_eq]
  omega

/-! ### What the two commands leave -/

section results

variable (r : Regs)

/-- The registers after `PADE` (R210). -/
def Regs.afterPade : Regs :=
  r.setPadResult (encPad r.length) (if r.length = 0 then 0 else 4 - encPad r.length) (encGroups r.length)
    (encOut r.length)

/-- The registers after `PADD` (R212). -/
def Regs.afterPadd : Regs :=
  r.setPadResult (decPad r.length) (if r.length = 0 then 0 else 5 - decPad r.length) (decGroups r.length)
    (decOut r.length)

theorem exec_pade (s : State) : exec .pade s = .next (s.withRegs s.regs.afterPade) := execPade_eq s

theorem exec_padd (s : State) : exec .padd s = .next (s.withRegs s.regs.afterPadd) := execPadd_eq s

theorem Regs.toNat_len : r.len.toNat = r.length := rfl

theorem Regs.length_lt : r.length < 2 ^ 32 := r.len.isLt

/-- OUTHI is bit 32 of the 33-bit length, so it says whether OUTLEN alone holds that length (R211). -/
theorem Regs.outhi_eq_true_iff : r.padinfo.outhi = true ↔ 2 ^ 32 ≤ r.outlen33 := by
  have hlow : r.outlen.toNat < 2 ^ 32 := r.outlen.isLt
  unfold Regs.outlen33
  cases r.padinfo.outhi with
  | false => simpa using hlow
  | true => simp

@[simp] theorem Regs.afterPade_pad : r.afterPade.padinfo.pad.toNat = encPad r.length :=
  Nat.mod_eq_of_lt ((encPad_lt _).trans (by decide))

@[simp] theorem Regs.afterPade_lastn :
    r.afterPade.padinfo.lastn.toNat = if r.length = 0 then 0 else 4 - encPad r.length :=
  Nat.mod_eq_of_lt (by split <;> omega)

@[simp] theorem Regs.afterPade_groups : r.afterPade.groups.toNat = encGroups r.length :=
  Nat.mod_eq_of_lt (by have := r.length_lt; rw [encGroups_eq]; omega)

@[simp] theorem Regs.afterPade_outlen33 : r.afterPade.outlen33 = encOut r.length :=
  Regs.outlen33_setPadResult _ _ _ _ _ (encOut_lt r.length_lt)

@[simp] theorem Regs.afterPadd_pad : r.afterPadd.padinfo.pad.toNat = decPad r.length :=
  Nat.mod_eq_of_lt ((decPad_lt _).trans (by decide))

@[simp] theorem Regs.afterPadd_lastn :
    r.afterPadd.padinfo.lastn.toNat = if r.length = 0 then 0 else 5 - decPad r.length :=
  Nat.mod_eq_of_lt (by split <;> omega)

@[simp] theorem Regs.afterPadd_groups : r.afterPadd.groups.toNat = decGroups r.length :=
  Nat.mod_eq_of_lt (by have := r.length_lt; rw [decGroups_eq]; omega)

@[simp] theorem Regs.afterPadd_outlen : r.afterPadd.outlen.toNat = decOut r.length :=
  Nat.mod_eq_of_lt ((decOut_le _).trans_lt r.length_lt)

/-- R213: a decoded length fits OUTLEN. -/
@[simp] theorem Regs.afterPadd_outhi : r.afterPadd.padinfo.outhi = false :=
  Nat.testBit_lt_two_pow ((decOut_le _).trans_lt r.length_lt)

end results

/-! ### The obligations -/

/-- Settles O46: the registers hold the formulas' values, and what is left is arithmetic on the length. -/
theorem padeComputesTheEncodedLength : Obligations.PadeComputesTheEncodedLength := by
  unfold Obligations.PadeComputesTheEncodedLength
  rintro s _ rfl
  refine ⟨_, exec_pade s, ?_⟩
  have hlt := s.regs.length_lt
  rw [Regs.outhi_eq_true_iff]
  simp only [State.withRegs_regs, Regs.afterPade_pad, Regs.afterPade_groups, Regs.afterPade_outlen33,
    Regs.afterPade_lastn, Regs.toNat_len, true_and]
  have hpad := encPad_eq s.regs.length
  rw [encGroups_eq] at hpad ⊢
  rw [encOut_eq]
  exact ⟨by omega, by omega, rfl, by omega, by omega, rfl, by omega, by omega, by omega, rfl⟩

/-- Settles O47: as for `PADE`, with groups of five. -/
theorem paddComputesTheDecodedLength : Obligations.PaddComputesTheDecodedLength := by
  unfold Obligations.PaddComputesTheDecodedLength
  rintro s _ rfl
  refine ⟨_, exec_padd s, ?_⟩
  have hlt := s.regs.length_lt
  simp only [State.withRegs_regs, Regs.afterPadd_pad, Regs.afterPadd_groups, Regs.afterPadd_outlen,
    Regs.afterPadd_outhi, Regs.afterPadd_lastn, Regs.toNat_len, true_and]
  have hpad := decPad_eq s.regs.length
  rw [decGroups_eq] at hpad ⊢
  rw [decOut_eq]
  exact ⟨by omega, rfl, by omega, by omega, rfl, by omega, rfl⟩

/-- Settles O48: 2^32 leaves 1 modulo 5, so the 32-bit negation of a nonzero length is off by one. -/
theorem paddPadIsOfTheUnsignedLength : Obligations.PaddPadIsOfTheUnsignedLength := by
  unfold Obligations.PaddPadIsOfTheUnsignedLength
  intro s
  refine ⟨_, exec_padd s, ?_⟩
  rw [State.withRegs_regs, Regs.afterPadd_pad, Regs.toNat_len]
  have hpad : decPad s.regs.length = (5 - s.regs.length % 5) % 5 := rfl
  refine ⟨by omega, decPad_lt _, fun hne => ?_⟩
  have hlt := s.regs.length_lt
  have hpos : s.regs.length ≠ 0 := fun h => hne (BitVec.eq_of_toNat_eq h)
  have hneg : (-s.regs.len).toNat = 2 ^ 32 - s.regs.length := by
    rw [BitVec.toNat_neg, Regs.toNat_len]
    omega
  omega

/-- Settles O49: the decoder's formulas undo the encoder's on an encoded length. -/
theorem paddUndoesPade : Obligations.PaddUndoesPade := by
  unfold Obligations.PaddUndoesPade
  intro s s'
  refine ⟨_, exec_pade s, fun hlen => ⟨_, exec_padd s', ?_⟩⟩
  simp only [State.withRegs_regs] at hlen ⊢
  rw [Regs.afterPade_outlen33, Regs.toNat_len] at hlen
  refine ⟨BitVec.eq_of_toNat_eq ?pad, BitVec.eq_of_toNat_eq ?groups, BitVec.eq_of_toNat_eq ?outlen⟩
  case pad => rw [Regs.afterPadd_pad, Regs.afterPade_pad, hlen, decPad_encOut]
  case groups => rw [Regs.afterPadd_groups, Regs.afterPade_groups, hlen, decGroups_encOut]
  case outlen => rw [Regs.afterPadd_outlen, hlen, decOut_encOut, Regs.toNat_len]

/-- Settles O50: no encoded length leaves 1, and for such a length the last group has one character and no byte. -/
theorem remainderOneIsNoEncodedLength : Obligations.RemainderOneIsNoEncodedLength := by
  unfold Obligations.RemainderOneIsNoEncodedLength
  refine ⟨fun s => ⟨_, exec_pade s, ?encoded⟩, fun s hone => ⟨_, exec_padd s, ?decoded⟩⟩
  case encoded =>
    rw [State.withRegs_regs, Regs.afterPade_outlen33]
    exact encOut_mod_five_ne_one _
  case decoded =>
    rw [Regs.toNat_len] at hone
    have hpad : decPad s.regs.length = 4 := by rw [decPad, hone]
    have hpos : s.regs.length ≠ 0 := by omega
    rw [State.withRegs_regs]
    refine ⟨BitVec.eq_of_toNat_eq ?_, BitVec.eq_of_toNat_eq ?_, ?_⟩
    · rw [Regs.afterPadd_pad, hpad]
      rfl
    · rw [Regs.afterPadd_lastn, if_neg hpos, hpad]
      rfl
    · rw [Regs.afterPadd_outlen, Regs.afterPadd_groups, decOut, hpad]
      omega

end Sys2Proof.Machine
end

section
/-! PROOFS. The control commands (spec/44_control.md): what `NOP` and `SRST` do, and the words beside theirs that are
illegal. -/

namespace Sys2Proof.Machine

open Sys2Proof.Claims

/-- What an access reads is a function of the registers: the run of the host has no part in it (R62). -/
theorem memRead_congr_regs {s t : State} (h : s.regs = t.regs) (addr : Offset) (size : Nat) :
    memRead addr size s = memRead addr size t := by
  rw [memRead, memRead, h]

theorem exec_nop (s : State) : exec .nop s = .next s := execNop_eq s

theorem exec_srst (s : State) : exec .srst s = .next (s.withRegs Regs.reset) := execSrst_eq s

/-- The words of a command: none if its count is out of range, else the encoder's word alone (R92, R94). -/
theorem decode_eq_ok_iff_encode {w : Word} {i : Instr} : decode w = .ok i ↔ i.WellFormed ∧ encode i = w := by
  refine ⟨encode_of_decode_eq_ok, ?_⟩
  rintro ⟨hwf, rfl⟩
  rw [decode_encode, if_pos hwf]

/-- `NOP` and `SRST` have no count field: their opcodes with a nonzero count are illegal words (R92). -/
theorem not_commandLegal_of_count_ne_zero {w : Word} (hop : w.toNat % 16 = 0 ∨ w.toNat % 16 = 7)
    (hcnt : w.toNat / 16 % 8 ≠ 0) : ¬ commandLegal w := by
  unfold commandLegal
  omega

/-- Settles O27: the registers are the reset ones, and a read depends on nothing else; 0x17 is the opcode of `SRST`
with count 1. -/
theorem srstRestoresTheResetState : Obligations.SrstRestoresTheResetState := by
  unfold Obligations.SrstRestoresTheResetState
  refine fun s => ⟨⟨_, exec_srst s, fun r => memRead_congr_regs rfl _ _, rfl, rfl, rfl, rfl⟩, ?_⟩
  have hillegal : ¬ commandLegal 0x00000017 := not_commandLegal_of_count_ne_zero (.inr rfl) (by decide)
  exact memWrite_cmd_of_not_commandLegal s hillegal

/-- Settles O30: the word of `NOP` is the encoder's, 0; 0x10 is the opcode of `NOP` with count 1. -/
theorem nopHasNoEffect : Obligations.NopHasNoEffect := by
  unfold Obligations.NopHasNoEffect
  refine ⟨exec_nop, fun w => ?_, fun s => ?_⟩
  · have hword : encode .nop = 0 := rfl
    rw [decode_eq_ok_iff_encode, hword, eq_comm]
    exact and_iff_right rfl
  · have hillegal : ¬ commandLegal 0x00000010 := not_commandLegal_of_count_ne_zero (.inl rfl) (by decide)
    exact memWrite_cmd_of_not_commandLegal s hillegal

end Sys2Proof.Machine
end

section
/-! PROOFS. ENCODE_BUFFER (spec/45_buffer_protocol.md R260, R261, R266): a group of it is a group of the document's
encode, so a call encodes the buffer as the document does, and so do calls over a legal split (N14). -/

namespace Sys2Proof.Machine

/-! ### One group (R260, R261) -/

/-- The first `n` of `k` places at `p` hold bytes of the buffer; with the others filled by `c` they read as the
buffer's rest, `c` past its end. -/
theorem hostByte_or_fill (junk : Nat → Byte) {b : List Byte} {p n k i : Nat} (hn : n = min (b.length - p) k)
    (hi : i < k) (c : Byte) : (if i < n then hostByte junk b (p + i) else c) = (b.drop p).getD i c := by
  split
  next hlt =>
    rw [hostByte, List.getD_eq_getElem _ _ (by omega), List.getD_eq_getElem _ _ (by rw [List.length_drop]; omega),
      List.getElem_drop]
  next => rw [List.getD_eq_default _ _ (by rw [List.length_drop]; omega)]

theorem lanes_toList_eq_map_get (c : Lanes Byte) : c.toList = [0, 1, 2, 3, 4].map c.get := rfl

/-- The characters `ENC` writes are the document's of the zero-filled word (R154). -/
theorem Regs.afterEnc_chars_toList (r : Regs) (nb : Nat) :
    (r.afterEnc nb).chars.toList = documentChars (r.encGroup nb).toNat := by
  have hget : (r.afterEnc nb).chars.get = fun i => alpha (digitOf (r.encGroup nb).toNat i) := by
    funext i
    rw [Regs.afterEnc_chars_get, Regs.afterEnc_digits, extractDigits_get_toNat]
  rw [lanes_toList_eq_map_get, hget]
  rfl

section placeWord

variable (r : Regs) (junk : Nat → Byte) (b : List Byte) (g : Nat)

theorem Regs.byteLane_placeWord (j : Fin 4) :
    byteLane (r.placeWord junk b g).word j = hostByte junk b (4 * g + j.val) := by
  fin_cases j <;> simp [Regs.placeWord, Regs.writeReg]

/-- Zero filling removes the bytes past the end: what is left is the document's group word (R151, R261). -/
theorem Regs.encGroup_placeWord {nb : Nat} (hnb : nb = min (b.length - 4 * g) 4) :
    ((r.placeWord junk b g).encGroup nb).toNat = firstWord (b.drop (4 * g)) := by
  have hlane : ∀ j : Fin 4, byteLane ((r.placeWord junk b g).encGroup nb) j = (b.drop (4 * g)).getD j.val 0 := by
    intro j
    rw [Regs.byteLane_encGroup, Regs.byteLane_placeWord]
    exact hostByte_or_fill junk hnb j.isLt 0
  rw [← packWord_byteLanes ((r.placeWord junk b g).encGroup nb), packWord_toNat, hlane, hlane, hlane, hlane]
  rfl

end placeWord

/-- One group of ENCODE_BUFFER gives the kept characters of the document's group and leaves STATUS (R153, R260). -/
theorem encodeGroup_document (junk : Nat → Byte) (b : List Byte) (g : Nat) (s : State) {nb : BitVec 3}
    (hnb : nb.toNat = min (b.length - 4 * g) 4) (h1 : 1 ≤ nb.toNat) :
    ∃ t, encodeGroup junk b nb g s =
        some ((documentChars (firstWord (b.drop (4 * g)))).take (nb.toNat + 1), t) ∧
      t.regs.status = s.regs.status := by
  have h := encodeGroup_eq junk b nb g s ⟨h1, by omega⟩
  rw [Regs.afterEnc_chars_toList, Regs.encGroup_placeWord _ _ _ _ hnb] at h
  exact ⟨_, h, rfl⟩

/-! ### One call (R260, R261, R263) -/

/-- The count of group `g` is what is left of the buffer, at most four. -/
theorem groupCount_encode {l left g : Nat} {lastn : BitVec 3}
    (hlast : lastn.toNat = if l = 0 then 0 else 4 - (4 - l % 4) % 4) (hleft : left + 1 = (l - 4 * g + 3) / 4) :
    (groupCount 4#3 lastn left).toNat = min (l - 4 * g) 4 := by
  unfold groupCount
  split
  · rw [hlast, if_neg (by omega)]
    omega
  · rw [show (4#3).toNat = 4 from rfl]
    omega

theorem documentEncode_nil : documentEncode [] = [] := rfl

/-- The groups of ENCODE_BUFFER from `g` on give the document's encode of the rest of the buffer. -/
theorem encodeGroups_document (junk : Nat → Byte) (b : List Byte) {lastn : BitVec 3}
    (hlast : lastn.toNat = if b.length = 0 then 0 else 4 - (4 - b.length % 4) % 4) (left g : Nat) (s : State)
    (hleft : left = (b.length - 4 * g + 3) / 4) :
    ∃ t, encodeGroups junk b lastn left g s = some (documentEncode (b.drop (4 * g)), t) ∧
      t.regs.status = s.regs.status := by
  induction left generalizing g s with
  | zero =>
    rw [List.drop_eq_nil_of_le (by omega), documentEncode_nil]
    exact ⟨s, rfl, rfl⟩
  | succ left ih =>
    have hcount := groupCount_encode hlast hleft
    have hne : b.drop (4 * g) ≠ [] := List.ne_nil_of_length_pos (by rw [List.length_drop]; omega)
    obtain ⟨s1, hgroup, hst1⟩ := encodeGroup_document junk b g s hcount (by omega)
    obtain ⟨t, hrest, hst⟩ := ih (g + 1) s1 (by omega)
    refine ⟨t, ?_, hst.trans hst1⟩
    rw [documentEncode_eq _ hne, List.length_drop, ← hcount, List.drop_drop, ← Nat.mul_succ]
    simp [encodeGroups, hgroup, hrest]

/-- ENCODE_BUFFER encodes the buffer as the document does and checks the STATUS it found (R260, R263). -/
theorem encodeBuffer_document (junk : Nat → Byte) {b : List Byte} (s : State) (hb : b.length < 2 ^ 32) :
    ∃ t, encodeBuffer junk b s = finishCall (documentEncode b) t ∧ t.regs.status = s.regs.status := by
  obtain ⟨lastn, s1, hlayout, hlast, hst1⟩ := hostLayout_pade b.length s hb
  obtain ⟨t, hgroups, hst⟩ := encodeGroups_document junk b hlast ((b.length + 3) / 4) 0 s1 (by simp)
  refine ⟨t, ?_, hst.trans hst1⟩
  rw [Nat.mul_zero, List.drop_zero] at hgroups
  rw [encodeBuffer, if_pos hb]
  simp [hlayout, hgroups]

theorem flagsClear_of_status_eq {s t : State} (h : t.regs.status = s.regs.status) (hs : s.regs.flagsClear) :
    t.regs.flagsClear := (congrArg Status.err h).trans hs

theorem encodeBuffer_returned (junk : Nat → Byte) {b : List Byte} {s : State} (hb : b.length < 2 ^ 32)
    (hs : s.regs.flagsClear) :
    ∃ t, encodeBuffer junk b s = some (.returned (documentEncode b), t) ∧ t.regs.status = s.regs.status := by
  obtain ⟨t, hcall, hst⟩ := encodeBuffer_document junk s hb
  exact ⟨t, hcall.trans (finishCall_clean _ _ (flagsClear_of_status_eq hst hs)), hst⟩

/-! ### A split (N14) -/

/-- The first part of a legal split: it fits a call, and it ends on a group boundary unless nothing comes after. -/
theorem splitLegal_cons {k : Nat} {p : List Byte} {rest : List (List Byte)} (h : splitLegal k (p :: rest)) :
    p.length < 2 ^ 32 ∧ (p.length % k = 0 ∨ rest.flatten = []) ∧ splitLegal k rest := by
  obtain ⟨hfit, hmul⟩ := h
  rw [List.forall_mem_cons] at hfit
  cases rest with
  | nil => exact ⟨hfit.1, .inr rfl, by simp, by simp⟩
  | cons q rest =>
    rw [List.dropLast_cons_of_ne_nil (by simp), List.forall_mem_cons] at hmul
    exact ⟨hfit.1, .inl hmul.1, hfit.2, hmul.2⟩

theorem documentEncode_append_of_split {p q : List Byte} (h : p.length % 4 = 0 ∨ q = []) :
    documentEncode (p ++ q) = documentEncode p ++ documentEncode q := by
  rcases h with h | rfl
  · exact documentEncode_append p q h
  · rw [documentEncode_nil, List.append_nil, List.append_nil]

/-- Calls over a legal split give the document's encode of the whole and leave STATUS. -/
theorem encodeParts_returned (junk : Nat → Nat → Byte) {parts : List (List Byte)} (k : Nat) {s : State}
    (hsplit : splitLegal 4 parts) (hs : s.regs.flagsClear) :
    ∃ t, callParts (fun k => encodeBuffer (junk k)) parts k s = some (.returned (documentEncode parts.flatten), t) ∧
      t.regs.status = s.regs.status := by
  induction parts generalizing k s with
  | nil => exact ⟨s, rfl, rfl⟩
  | cons p rest ih =>
    obtain ⟨hfit, hbound, hrest⟩ := splitLegal_cons hsplit
    obtain ⟨s1, hcall, hst1⟩ := encodeBuffer_returned (junk k) hfit hs
    obtain ⟨t, hcalls, hst⟩ := ih (k + 1) hrest (flagsClear_of_status_eq hst1 hs)
    refine ⟨t, ?_, hst.trans hst1⟩
    rw [List.flatten_cons, documentEncode_append_of_split hbound]
    exact callParts_returned hcall hcalls

/-! ### The obligations -/

/-- Settles O53: one call by induction on its groups, a split by induction on its parts; the longest parts are a legal
split. -/
theorem encodeBufferComputesEncode : Obligations.EncodeBufferComputesEncode := by
  unfold Obligations.EncodeBufferComputesEncode
  refine ⟨fun junk b s hb hs => encodeBuffer_returned junk hb hs,
    fun junk parts s hsplit hs => encodeParts_returned junk 0 hsplit hs, fun junk b s hs => ?longest⟩
  case longest =>
    have hsplit := cutEvery_splitLegal 4 0xFFFFFFFC b.length b rfl (by decide) (by decide) le_rfl
    have h := encodeParts_returned junk 0 hsplit hs
    rwa [cutEvery_flatten] at h

/-- Settles O58: the output is the document's, whose length `documentEncode_length` gives. -/
theorem encodedLengthFormula : Obligations.EncodedLengthFormula := by
  unfold Obligations.EncodedLengthFormula
  intro junk b s hb hs
  obtain ⟨t, hcall, -⟩ := encodeBuffer_returned junk hb hs
  have hlen := documentEncode_length b
  exact ⟨_, t, hcall, hlen, by omega, by omega⟩

end Sys2Proof.Machine
end

section
/-! PROOFS. DECODE_BUFFER (spec/45_buffer_protocol.md R262 to R264): what decoding leaves, said once as a relation
between the document's decode of the string and the block's STATUS; the two hosts of R263; calls over a legal split
(N14). -/

namespace Sys2Proof.Machine

open Sys2Proof.Claims

/-! ### What decoding leaves (R184, R186, R264) -/

/-- Whether a group of the string, padded, has a value of 2^32 or more, for which `DEC` sets WIDE (R186). -/
def wideGroup : List Byte → Bool
  | [] => false
  | c0 :: c1 :: c2 :: c3 :: c4 :: rest => decide (2 ^ 32 ≤ firstValue [c0, c1, c2, c3, c4]) || wideGroup rest
  | x => decide (2 ^ 32 ≤ firstValue x)

theorem wideGroup_nil : wideGroup [] = false := rfl

theorem wideGroup_eq {x : List Byte} (h : x ≠ []) :
    wideGroup x = (decide (2 ^ 32 ≤ firstValue x) || wideGroup (x.drop 5)) := by
  match x with
  | [c0] | [c0, c1] | [c0, c1, c2] | [c0, c1, c2, c3] => simp [wideGroup]
  | c0 :: c1 :: c2 :: c3 :: c4 :: rest => rfl

theorem wideGroup_append : ∀ p q : List Byte, p.length % 5 = 0 →
    wideGroup (p ++ q) = (wideGroup p || wideGroup q)
  | [], q, _ => by rw [List.nil_append, wideGroup_nil, Bool.false_or]
  | [_], _, h | [_, _], _, h | [_, _, _], _, h | [_, _, _, _], _, h => by simp at h
  | c0 :: c1 :: c2 :: c3 :: c4 :: rest, q, h => by
    have ih := wideGroup_append rest q (by simp at h; omega)
    simp only [List.cons_append, wideGroup, ih, Bool.or_assoc]

/-- STATUS with WIDE set if `wide` (R186). -/
def Status.orWide (st : Status) (wide : Bool) : Status := { st with wide := st.wide || wide }

@[simp] theorem Status.orWide_err (st : Status) (wide : Bool) : (st.orWide wide).err = st.err := rfl

@[simp] theorem Status.orWide_false (st : Status) : st.orWide false = st := by
  simp [Status.orWide]

@[simp] theorem Status.orWide_orWide (st : Status) (w w' : Bool) : (st.orWide w).orWide w' = st.orWide (w || w') := by
  simp [Status.orWide, Bool.or_assoc]

theorem Status.noteWide_eq_orWide (st : Status) (n : Nat) : st.noteWide n = st.orWide (decide (2 ^ 32 ≤ n)) :=
  st.noteWide_eq n

theorem Status.err_of_invchar {st : Status} (h : st.invchar = true) : st.err = true := by
  simp [Status.err, h]

/-- What decoding leaves, given what the document's decode of the string is and whether a group is wide: the bytes,
with at most WIDE set; or INVCHAR, and then the bytes are of no use. -/
inductive Decoded : Option (List Byte) → Bool → List Byte → Status → Status → Prop
  | valid (b : List Byte) (wide : Bool) (st : Status) : Decoded (some b) wide b st (st.orWide wide)
  | invalid (out : List Byte) (wide wide' : Bool) (erridx : BitVec 3) (st : Status) :
    Decoded none wide out st { st with invchar := true, wide := wide', erridx := erridx }

section Decoded

variable {doc doc' : Option (List Byte)} {w w' : Bool} {out out' b : List Byte} {st st' st'' : Status}

/-- Decoding two pieces of a string one after the other decodes the two together. -/
theorem Decoded.append (h : Decoded doc w out st st') (h' : Decoded doc' w' out' st' st'') :
    Decoded (doc.bind fun b => doc'.map (b ++ ·)) (w || w') (out ++ out') st st'' := by
  cases h with
  | valid =>
    cases h' with
    | valid =>
      rw [Status.orWide_orWide]
      exact .valid ..
    | invalid => exact .invalid ..
  | invalid =>
    cases h' with
    | valid => exact .invalid ..
    | invalid => exact .invalid ..

theorem Decoded.out_eq (h : Decoded (some b) w out st st') : out = b := by cases h; rfl

theorem Decoded.status_eq (h : Decoded (some b) w out st st') : st' = st.orWide w := by cases h; rfl

theorem Decoded.invchar_of_none (h : Decoded none w out st st') : st'.invchar = true := by cases h; rfl

theorem Decoded.illcmd_eq (h : Decoded doc w out st st') : st'.illcmd = st.illcmd := by cases h <;> rfl

theorem Decoded.range_eq (h : Decoded doc w out st st') : st'.range = st.range := by cases h <;> rfl

/-- Decoding clears no error flag. -/
theorem Decoded.err_of_err (h : Decoded doc w out st st') (he : st.err = true) : st'.err = true := by
  cases h with
  | valid => exact he
  | invalid => exact Status.err_of_invchar rfl

/-- WIDE is no error: where the document's decode is defined, ERR is as it was (R32). -/
theorem Decoded.err_eq_of_some (h : Decoded (some b) w out st st') : st'.err = st.err := by
  rw [h.status_eq, Status.orWide_err]

theorem Decoded.err_of_none (h : Decoded none w out st st') : st'.err = true :=
  Status.err_of_invchar h.invchar_of_none

end Decoded

/-! ### One group (R262, R264) -/

section placeChars

variable (r : Regs) (junk : Nat → Byte) (x : List Byte) (g : Nat) {nc : Nat}

/-- Padding removes the characters past the end: what is left is the rest of the string, padded (R180, R264). -/
theorem Regs.padChars_placeChars (hnc : nc = min (x.length - 5 * g) 5) (i : Fin 5) :
    (padChars nc (r.placeChars junk x g).chars).get i = (x.drop (5 * g)).getD i.val padChar := by
  rw [padChars_get, Regs.placeChars_chars]
  exact hostByte_or_fill junk hnc i.isLt padChar

/-- `DEC` computes the document's group value (R182, R264). -/
theorem Regs.decValue_placeChars (hnc : nc = min (x.length - 5 * g) 5) :
    (r.placeChars junk x g).decValue nc = firstValue (x.drop (5 * g)) := by
  have hdigit : ∀ i : Fin 5, ((lookupDigits (padChars nc (r.placeChars junk x g).chars)).get i).toNat =
      documentInverse ((x.drop (5 * g)).getD i.val padChar) := fun i => by
    rw [lookupDigits_get, Regs.padChars_placeChars _ _ _ _ hnc, documentInverse]
  rw [Regs.decValue, accumulate_eq_digitSum, digitSum]
  simp only [hdigit, Fin.sum_univ_five]
  simp [firstValue]

/-- `DEC` accepts the group exactly where the document finds its characters in the alphabet (R181, R264). -/
theorem firstInvalid_placeChars (hnc : nc = min (x.length - 5 * g) 5) :
    firstInvalid nc (r.placeChars junk x g).chars = none ↔ ((x.drop (5 * g)).take 5).all inAlphabet = true := by
  have hreal : ∀ i (h : 5 * g + i < x.length), hostByte junk x (5 * g + i) = x[5 * g + i] := fun i h =>
    List.getD_eq_getElem _ _ h
  rw [firstInvalid_eq_none, List.all_eq_true, List.forall_mem_iff_getElem]
  simp only [Regs.placeChars_chars, List.length_take, List.length_drop, List.getElem_take, List.getElem_drop]
  constructor
  · intro h i hi
    rw [← hreal i (by omega)]
    exact h ⟨i, by omega⟩ (show i < nc by omega)
  · intro h i hi
    rw [hreal i.val (by omega)]
    exact h i (by omega)

/-- The bytes of the word `DEC` writes are the document's of the value (R183). -/
theorem Regs.afterDec_wordBytes (nc : Nat) : (r.afterDec nc).wordBytes = documentBytes (r.decValue nc) := by
  have hlane : ∀ j : Fin 4, byteLane (r.afterDec nc).word j =
      BitVec.ofNat 8 ((r.decValue nc) >>> (8 * (3 - j.val)) &&& 0xFF) := fun j => by
    rw [Regs.afterDec_word, ← byteLane_ofNat_toNat, BitVec.ofNat_toNat, BitVec.setWidth_eq]
  rw [Regs.wordBytes, hlane, hlane, hlane, hlane]
  rfl

end placeChars

/-- One group of DECODE_BUFFER gives the kept bytes of the document's group, or sets INVCHAR. -/
theorem decodeGroup_document (junk : Nat → Byte) (x : List Byte) (g : Nat) (s : State) {nc : BitVec 3}
    (hnc : nc.toNat = min (x.length - 5 * g) 5) (h1 : 1 ≤ nc.toNat) :
    ∃ out t, decodeGroup junk x nc g s = some (out, t) ∧
      Decoded (if ((x.drop (5 * g)).take 5).all inAlphabet then
          some ((documentBytes (firstValue (x.drop (5 * g)))).take (nc.toNat - 1)) else none)
        (decide (2 ^ 32 ≤ firstValue (x.drop (5 * g)))) out s.regs.status t.regs.status := by
  have h5 : nc.toNat ≤ 5 := by omega
  have hfirst := firstInvalid_placeChars s.regs junk x g hnc
  cases hf : firstInvalid nc.toNat (s.regs.placeChars junk x g).chars with
  | none =>
    refine ⟨_, _, decodeGroup_eq junk x nc g s _ ⟨h1, h5⟩ (execDec_valid _ nc ⟨h1, h5⟩ hf), ?_⟩
    simp only [if_pos (hfirst.mp hf), State.withRegs_regs, Regs.afterDec_wordBytes, Regs.afterDec_keep_toNat _ h5,
      Regs.afterDec_status, Regs.decValue_placeChars _ _ _ _ hnc, Status.noteWide_eq_orWide, Regs.placeChars_status]
    exact .valid ..
  | some i =>
    refine ⟨_, _, decodeGroup_eq junk x nc g s _ ⟨h1, h5⟩ (execDec_invalid _ nc ⟨h1, h5⟩ i hf), ?_⟩
    rw [if_neg fun hall => by simp [hfirst.mpr hall] at hf]
    exact .invalid ..

/-! ### The host that checks after each `DEC` (R263) -/

/-- What the host that checks after each `DEC` gets, where the host that checks once ends with the output `out` in
`t`: the same if no error flag is set there, else a failure with the STATUS word of the state it stopped in. -/
inductive StopsAtError (st : Status) (out : List Byte) (t : State) : Option (CallResult × State) → Prop
  | clean (ht : t.regs.status.err = false) : StopsAtError st out t (some (.returned out, t))
  | stopped (u : State) (ht : t.regs.status.err = true) (hu : u.regs.status.err = true)
    (hillcmd : u.regs.status.illcmd = st.illcmd) (hrange : u.regs.status.range = st.range) :
    StopsAtError st out t (some (.failed u.regs.status.toWord, u))

section StopsAtError

variable {st st' : Status} {out : List Byte} {t : State} {c : Option (CallResult × State)}

theorem StopsAtError.eq_returned (h : StopsAtError st out t c) (ht : t.regs.status.err = false) :
    c = some (.returned out, t) := by
  cases h with
  | clean => rfl
  | stopped u ht' => simp [ht] at ht'

theorem StopsAtError.eq_failed (h : StopsAtError st out t c) (ht : t.regs.status.err = true) :
    ∃ u, c = some (.failed u.regs.status.toWord, u) ∧ u.regs.status.err = true ∧
      u.regs.status.illcmd = st.illcmd ∧ u.regs.status.range = st.range := by
  cases h with
  | clean ht' => simp [ht] at ht'
  | stopped u _ hu hillcmd hrange => exact ⟨u, rfl, hu, hillcmd, hrange⟩

/-- With no group left both hosts make the same check. -/
theorem StopsAtError.finishCall_nil (s : State) : StopsAtError s.regs.status [] s (finishCall [] s) := by
  cases he : s.regs.status.err with
  | false =>
    rw [finishCall_clean _ _ he]
    exact .clean he
  | true =>
    rw [finishCall_err _ _ he]
    exact .stopped s he he rfl rfl

/-- A group that set no error flag puts its bytes in front of what the host gets for the rest. -/
theorem StopsAtError.after (b : List Byte) (h : StopsAtError st' out t c) (hillcmd : st'.illcmd = st.illcmd)
    (hrange : st'.range = st.range) : StopsAtError st (b ++ out) t (c.map fun p => (p.1.after b, p.2)) := by
  cases h with
  | clean ht => exact .clean ht
  | stopped u ht hu hi hr => exact .stopped u ht hu (hi.trans hillcmd) (hr.trans hrange)

end StopsAtError

section groups

variable {junk : Nat → Byte} {x : List Byte} {lastn : BitVec 3} {left g : Nat} {s s1 : State} {b : List Byte}
  (h : decodeGroup junk x (groupCount 5#3 lastn left) g s = some (b, s1))

include h

theorem decodeGroups_succ : decodeGroups junk x lastn (left + 1) g s =
    (decodeGroups junk x lastn left (g + 1) s1).map fun p => (b ++ p.1, p.2) := by
  simp [decodeGroups, h, Option.map_eq_bind]

theorem decodeGroupsChecked_succ : decodeGroupsChecked junk x lastn (left + 1) g s =
    if s1.regs.status.err then some (.failed s1.regs.status.toWord, s1)
    else (decodeGroupsChecked junk x lastn left (g + 1) s1).map fun p => (p.1.after b, p.2) := by
  simp only [decodeGroupsChecked, h, hostRead_eq, Option.bind_eq_bind, Option.bind_some, Regs.readReg,
    Status.toWord_getLsbD_31, Option.map_eq_bind, Function.comp_def]

end groups

/-! ### One call (R262 to R264) -/

/-- The count of group `g` is what is left of the string, at most five. -/
theorem groupCount_decode {l left g : Nat} {lastn : BitVec 3}
    (hlast : lastn.toNat = if l = 0 then 0 else 5 - (5 - l % 5) % 5) (hleft : left + 1 = (l - 5 * g + 4) / 5) :
    (groupCount 5#3 lastn left).toNat = min (l - 5 * g) 5 := by
  unfold groupCount
  split
  · rw [hlast, if_neg (by omega)]
    omega
  · rw [show (5#3).toNat = 5 from rfl]
    omega

theorem documentDecode_nil : documentDecode [] = some [] := rfl

/-- `documentDecode_eq` as the first group's decode followed by that of the rest. -/
theorem documentDecode_eq_bind {x : List Byte} (h : x ≠ []) :
    documentDecode x = (if (x.take 5).all inAlphabet then
      some ((documentBytes (firstValue x)).take (min x.length 5 - 1)) else none).bind
        fun b => (documentDecode (x.drop 5)).map (b ++ ·) := by
  rw [documentDecode_eq x h]
  split <;> rfl

/-- The groups of DECODE_BUFFER from `g` on decode the rest of the string as the document does, for both hosts. -/
theorem decodeGroups_document (junk : Nat → Byte) (x : List Byte) {lastn : BitVec 3}
    (hlast : lastn.toNat = if x.length = 0 then 0 else 5 - (5 - x.length % 5) % 5) (left g : Nat) (s : State)
    (hleft : left = (x.length - 5 * g + 4) / 5) :
    ∃ out t, decodeGroups junk x lastn left g s = some (out, t) ∧
      Decoded (documentDecode (x.drop (5 * g))) (wideGroup (x.drop (5 * g))) out s.regs.status t.regs.status ∧
      StopsAtError s.regs.status out t (decodeGroupsChecked junk x lastn left g s) := by
  induction left generalizing g s with
  | zero =>
    rw [List.drop_eq_nil_of_le (by omega), wideGroup_nil, documentDecode_nil]
    have hdec := Decoded.valid [] false s.regs.status
    rw [Status.orWide_false] at hdec
    exact ⟨[], s, rfl, hdec, .finishCall_nil s⟩
  | succ left ih =>
    have hcount := groupCount_decode hlast hleft
    have hne : x.drop (5 * g) ≠ [] := List.ne_nil_of_length_pos (by rw [List.length_drop]; omega)
    obtain ⟨b, s1, hgroup, hdec1⟩ := decodeGroup_document junk x g s hcount (by omega)
    obtain ⟨out, t, hrest, hdec, hstop⟩ := ih (g + 1) s1 (by omega)
    rw [decodeGroups_succ hgroup, decodeGroupsChecked_succ hgroup, hrest]
    refine ⟨b ++ out, t, rfl, ?document, ?stops⟩
    case document =>
      have hjoin := hdec1.append hdec
      rw [Nat.mul_succ, ← List.drop_drop, ← wideGroup_eq hne, hcount, ← List.length_drop] at hjoin
      rwa [documentDecode_eq_bind hne]
    case stops =>
      split
      next he => exact .stopped s1 (hdec.err_of_err he) he hdec1.illcmd_eq hdec1.range_eq
      next => exact hstop.after b hdec1.illcmd_eq hdec1.range_eq

/-- DECODE_BUFFER decodes the string as the document does, then checks STATUS; the host that checks after each `DEC`
does the same up to the first error. -/
theorem decodeBuffer_document (junk : Nat → Byte) {x : List Byte} (s : State) (hx : x.length < 2 ^ 32) :
    ∃ out t, decodeBuffer junk x s = finishCall out t ∧
      Decoded (documentDecode x) (wideGroup x) out s.regs.status t.regs.status ∧
      StopsAtError s.regs.status out t (decodeBufferChecked junk x s) := by
  obtain ⟨lastn, s1, hlayout, hlast, hst1⟩ := hostLayout_padd x.length s hx
  obtain ⟨out, t, hgroups, hdec, hstop⟩ := decodeGroups_document junk x hlast ((x.length + 4) / 5) 0 s1 (by simp)
  rw [hst1, Nat.mul_zero, List.drop_zero] at hdec
  rw [hst1] at hstop
  refine ⟨out, t, ?_, hdec, ?_⟩
  · rw [decodeBuffer, if_pos hx]
    simp [hlayout, hgroups]
  · rw [decodeBufferChecked, if_pos hx]
    simpa [hlayout] using hstop

/-! ### Calls from clean flags (R263, R264) -/

/-- Of the error flags INVCHAR alone is set where ERR is and ILLCMD and RANGE are not. -/
theorem Status.toWord_and_errorMask {st : Status} (he : st.err = true) (hillcmd : st.illcmd = false)
    (hrange : st.range = false) : st.toWord &&& 0x8000000F = 0x80000001 := by
  have hinvchar : st.invchar = true := by simpa [Status.err, Status.ovf, hillcmd, hrange] using he
  obtain ⟨invchar, illcmd, range, wide, erridx⟩ := st
  subst hinvchar hillcmd hrange
  revert wide erridx
  decide

/-- A STATUS with ERR set, reached from clean flags without a change of ILLCMD and RANGE, names INVCHAR alone. -/
theorem Regs.toWord_errorMask_of_flagsClear {r : Regs} {st : Status} (hr : r.flagsClear) (he : st.err = true)
    (hillcmd : st.illcmd = r.status.illcmd) (hrange : st.range = r.status.range) :
    st.toWord &&& 0x8000000F = 0x80000001 := by
  simp only [Regs.flagsClear, Status.err, Bool.or_eq_false_iff] at hr
  exact Status.toWord_and_errorMask he (hillcmd.trans hr.1.2) (hrange.trans hr.2)

/-- The outcome of decoding from clean flags, given what the document's decode of the string is: the bytes, with at
most WIDE set, or the failure that INVCHAR names (R264). -/
def DecodeCall (doc : Option (List Byte)) (wide : Bool) (st : Status) (c : Option (CallResult × State)) : Prop :=
  match doc with
  | some b => ∃ t, c = some (.returned b, t) ∧ t.regs.status = st.orWide wide
  | none => ∃ word t, c = some (.failed word, t) ∧ word &&& 0x8000000F = 0x80000001

theorem decodeBuffer_decodeCall (junk : Nat → Byte) {x : List Byte} {s : State} (hx : x.length < 2 ^ 32)
    (hs : s.regs.flagsClear) :
    DecodeCall (documentDecode x) (wideGroup x) s.regs.status (decodeBuffer junk x s) := by
  obtain ⟨out, t, hcall, hdec, -⟩ := decodeBuffer_document junk s hx
  rw [hcall]
  cases hd : documentDecode x with
  | some b =>
    rw [hd] at hdec
    exact ⟨t, hdec.out_eq ▸ finishCall_clean _ _ (hdec.err_eq_of_some.trans hs), hdec.status_eq⟩
  | none =>
    rw [hd] at hdec
    exact ⟨_, t, finishCall_err _ _ hdec.err_of_none,
      Regs.toWord_errorMask_of_flagsClear hs hdec.err_of_none hdec.illcmd_eq hdec.range_eq⟩

/-! ### A split (N14) -/

section split

variable {p q : List Byte} (h : p.length % 5 = 0 ∨ q = [])

include h

theorem documentDecode_append_of_split :
    documentDecode (p ++ q) = (documentDecode p).bind fun b => (documentDecode q).map (b ++ ·) := by
  rcases h with h | rfl
  · exact documentDecode_append p q h
  · simp [documentDecode_nil]

theorem wideGroup_append_of_split : wideGroup (p ++ q) = (wideGroup p || wideGroup q) := by
  rcases h with h | rfl
  · exact wideGroup_append p q h
  · rw [List.append_nil, wideGroup_nil, Bool.or_false]

end split

/-- Calls over a legal split decode the whole as one call decodes a string: the parts' decodes join, and the first
that is not defined fails the whole. -/
theorem decodeParts_decodeCall (junk : Nat → Nat → Byte) {parts : List (List Byte)} (k : Nat) {s : State}
    (hsplit : splitLegal 5 parts) (hs : s.regs.flagsClear) :
    DecodeCall (documentDecode parts.flatten) (wideGroup parts.flatten) s.regs.status
      (callParts (fun k => decodeBuffer (junk k)) parts k s) := by
  induction parts generalizing k s with
  | nil => exact ⟨s, rfl, by rw [List.flatten_nil, wideGroup_nil, Status.orWide_false]⟩
  | cons p rest ih =>
    obtain ⟨hfit, hbound, hrest⟩ := splitLegal_cons hsplit
    have hcall := decodeBuffer_decodeCall (junk k) hfit hs
    rw [List.flatten_cons, documentDecode_append_of_split hbound, wideGroup_append_of_split hbound]
    cases hp : documentDecode p with
    | none =>
      rw [hp] at hcall
      obtain ⟨word, s1, hcall, hword⟩ := hcall
      exact ⟨word, s1, callParts_failed hcall rest, hword⟩
    | some b =>
      rw [hp] at hcall
      obtain ⟨s1, hcall, hst1⟩ := hcall
      have hs1 : s1.regs.flagsClear := by rwa [Regs.flagsClear, hst1, Status.orWide_err]
      have hcalls := ih (k + 1) hrest hs1
      cases hq : documentDecode rest.flatten with
      | none =>
        rw [hq] at hcalls
        obtain ⟨word, t, hcalls, hword⟩ := hcalls
        exact ⟨word, t, callParts_returned hcall hcalls, hword⟩
      | some u =>
        rw [hq] at hcalls
        obtain ⟨t, hcalls, hst⟩ := hcalls
        exact ⟨t, callParts_returned hcall hcalls, by rw [hst, hst1, Status.orWide_orWide]⟩

/-! ### The obligations -/

/-- Settles O54: one call of either host by induction on its groups, a split by induction on its parts. -/
theorem decodeBufferComputesDecode : Obligations.DecodeBufferComputesDecode := by
  unfold Obligations.DecodeBufferComputesDecode
  refine ⟨fun junk x s hx hs => ?oneCall, fun junk parts s hsplit hs => ?split⟩
  case oneCall =>
    obtain ⟨out, t, hcall, hdec, hstop⟩ := decodeBuffer_document junk s hx
    refine ⟨fun b hd => ?defined, fun hd => ⟨?failed, ?stopped⟩⟩
    case defined =>
      rw [hd] at hdec
      have ht := hdec.err_eq_of_some.trans hs
      obtain rfl := hdec.out_eq
      exact ⟨t, hcall.trans (finishCall_clean _ _ ht), hstop.eq_returned ht⟩
    case failed =>
      have h := decodeBuffer_decodeCall junk hx hs
      rwa [hd] at h
    case stopped =>
      rw [hd] at hdec
      obtain ⟨u, hchecked, hu, hillcmd, hrange⟩ := hstop.eq_failed hdec.err_of_none
      exact ⟨_, u, hchecked, Regs.toWord_errorMask_of_flagsClear hs hu hillcmd hrange⟩
  case split =>
    have h := decodeParts_decodeCall junk 0 hsplit hs
    refine ⟨fun b hd => ?_, fun hd => ?_⟩ <;> rw [hd] at h
    · obtain ⟨t, hcall, -⟩ := h
      exact ⟨t, hcall⟩
    · exact h

/-- Settles O55: encoding leaves STATUS and decoding clears no error flag, so each check finds ERR set. -/
theorem staleErrorFlagFailsTheCall : Obligations.StaleErrorFlagFailsTheCall := by
  unfold Obligations.StaleErrorFlagFailsTheCall
  intro junk b s hb hs
  obtain ⟨t, hencode, hst⟩ := encodeBuffer_document junk s hb
  obtain ⟨out, u, hdecode, hdec, hstop⟩ := decodeBuffer_document junk s hb
  have ht : t.regs.status.err = true := hst ▸ hs
  have hu := hdec.err_of_err hs
  obtain ⟨v, hchecked, hv, -⟩ := hstop.eq_failed hu
  exact ⟨⟨_, t, hencode.trans (finishCall_err _ _ ht), (Status.toWord_getLsbD_31 _).trans ht⟩,
    ⟨_, u, hdecode.trans (finishCall_err _ _ hu), (Status.toWord_getLsbD_31 _).trans hu⟩,
    ⟨_, v, hchecked, (Status.toWord_getLsbD_31 _).trans hv⟩⟩

end Sys2Proof.Machine
end

section
/-! PROOFS. The round trip of a buffer and the alphabet (spec/45_buffer_protocol.md R265, R268): the document's decode
inverts its encode, because `DEC` recovers what `ENC` encoded (R188), and the procedures compute the two. -/

namespace Sys2Proof.Machine

/-! ### One group (R188) -/

/-- The characters `encode` keeps of the first group of `b`. -/
def keptChars (b : List Byte) : List Byte := (documentChars (firstWord b)).take (min b.length 4 + 1)

theorem keptChars_length (b : List Byte) : (keptChars b).length = min b.length 4 + 1 := by
  rw [keptChars, List.length_take, documentChars_length]
  omega

theorem keptChars_all_inAlphabet (b : List Byte) : (keptChars b).all inAlphabet = true := by
  rw [List.all_eq_true]
  intro c hc
  obtain ⟨k, -, rfl⟩ := List.mem_map.mp (List.mem_of_mem_take hc)
  exact inAlphabet_alpha _ (by omega)

theorem hostByte_take_toList (junk : Nat → Byte) (c : Lanes Byte) {n : Nat} {i : Fin 5} (hi : i.val < n) :
    hostByte junk (c.toList.take n) i.val = c.get i := by
  rw [hostByte, List.getD_eq_getElem?_getD, List.getElem?_take_of_lt hi]
  fin_cases i <;> rfl

/-- The real lanes the host places to decode what `encode` kept of the first group are those `ENC` writes for it. -/
theorem placeChars_keptChars (r r' : Regs) (junk : Nat → Byte) (b : List Byte) (i : Fin 5)
    (hi : i.val < min b.length 4 + 1) :
    (r'.placeChars junk (keptChars b) 0).chars.get i =
      ((r.placeWord junk b 0).afterEnc (min b.length 4)).chars.get i := by
  have hkept : keptChars b =
      ((r.placeWord junk b 0).afterEnc (min b.length 4)).chars.toList.take (min b.length 4 + 1) := by
    rw [Regs.afterEnc_chars_toList, Regs.encGroup_placeWord _ _ _ _ (by simp), Nat.mul_zero, List.drop_zero, keptChars]
  rw [Regs.placeChars_chars, Nat.mul_zero, Nat.zero_add, hkept, hostByte_take_toList _ _ hi]

theorem Regs.wordBytes_eq_ofFn (r : Regs) : r.wordBytes = List.ofFn (byteLane r.word) := by
  simp [Regs.wordBytes, List.ofFn_succ]

/-- A word whose lanes hold the first bytes of a buffer gives them back. -/
theorem Regs.wordBytes_take {r : Regs} {b : List Byte} {junk : Nat → Byte}
    (h : ∀ j : Fin 4, j.val < min b.length 4 → byteLane r.word j = hostByte junk b j.val) :
    r.wordBytes.take (min b.length 4) = b.take 4 := by
  rw [Regs.wordBytes_eq_ofFn]
  apply List.ext_getElem
  · simp [Nat.min_comm]
  · intro i hi _
    simp only [List.length_take, List.length_ofFn] at hi
    have hb : i < b.length := by omega
    rw [List.getElem_take, List.getElem_ofFn, List.getElem_take, h _ (show i < _ by omega), hostByte,
      List.getD_eq_getElem _ _ hb]

/-- The kept characters of a group have a value below 2^32, whose first bytes are the group's: this is R188, for `ENC`
of the placed bytes and `DEC` of the placed characters. -/
theorem firstValue_keptChars (b : List Byte) :
    firstValue (keptChars b) < 2 ^ 32 ∧
      (documentBytes (firstValue (keptChars b))).take (min b.length 4) = b.take 4 := by
  obtain ⟨s', hs'⟩ : ∃ s' : State, s'.regs = Regs.reset.placeChars (fun _ => 0) (keptChars b) 0 :=
    ⟨State.reset.withRegs _, rfl⟩
  have hchars := placeChars_keptChars Regs.reset Regs.reset (fun _ => 0) b
  have hvalue := Regs.decValue_placeChars Regs.reset (fun _ => 0) (keptChars b) 0 (nc := min b.length 4 + 1)
    (by rw [keptChars_length]; omega)
  rw [Nat.mul_zero, List.drop_zero] at hvalue
  rw [← hs'] at hchars hvalue
  have h4 : min b.length 4 ≤ 4 := Nat.min_le_right _ _
  rw [← hvalue]
  constructor
  · rw [Regs.decValue_eq_decodedValue]
    exact decodedValue_lt_word_size hchars h4
  · rw [← Regs.afterDec_wordBytes]
    refine Regs.wordBytes_take (junk := fun _ => 0) fun j hj => ?_
    rw [Regs.byteLane_eq_of_encGroup_eq (encGroup_afterDec_eq hchars h4) hj, Regs.byteLane_placeWord, Nat.mul_zero,
      Nat.zero_add]

theorem documentDecode_keptChars (b : List Byte) :
    documentDecode (keptChars b) = some (b.take 4) ∧ wideGroup (keptChars b) = false := by
  have hlen := keptChars_length b
  have hne : keptChars b ≠ [] := List.ne_nil_of_length_pos (by omega)
  have htake : (keptChars b).take 5 = keptChars b := List.take_of_length_le (by omega)
  have hdrop : (keptChars b).drop 5 = [] := List.drop_eq_nil_of_le (by omega)
  obtain ⟨hvalue, hbytes⟩ := firstValue_keptChars b
  constructor
  · rw [documentDecode_eq _ hne, htake, if_pos (keptChars_all_inAlphabet b), hdrop, documentDecode_nil, hlen,
      Nat.min_eq_left (by omega), Nat.add_sub_cancel, hbytes, Option.map_some, List.append_nil]
  · rw [wideGroup_eq hne, hdrop, wideGroup_nil, decide_eq_false (Nat.not_le.mpr hvalue), Bool.or_false]

/-! ### The whole buffer (R264, R265) -/

/-- The kept characters end on a group boundary unless no byte comes after them. -/
theorem keptChars_split (b : List Byte) : (keptChars b).length % 5 = 0 ∨ documentEncode (b.drop 4) = [] := by
  rw [keptChars_length]
  by_cases h4 : 4 ≤ b.length
  · exact .inl (by omega)
  · rw [List.drop_eq_nil_of_le (by omega)]
    exact .inr documentEncode_nil

/-- `decode` inverts `encode`, and no group of an encoded buffer is wide. -/
theorem documentDecode_documentEncode (b : List Byte) :
    documentDecode (documentEncode b) = some b ∧ wideGroup (documentEncode b) = false := by
  induction hn : b.length using Nat.strong_induction_on generalizing b with
  | _ n ih =>
    by_cases hb : b = []
    · subst hb
      exact ⟨documentDecode_nil, wideGroup_nil⟩
    · have hpos := List.length_pos_iff.mpr hb
      obtain ⟨hdec1, hwide1⟩ := documentDecode_keptChars b
      obtain ⟨hdec, hwide⟩ := ih (b.drop 4).length (by rw [List.length_drop]; omega) (b.drop 4) rfl
      have hbound := keptChars_split b
      rw [documentEncode_eq b hb, ← keptChars, documentDecode_append_of_split hbound,
        wideGroup_append_of_split hbound, hdec1, hdec, hwide1, hwide]
      simp

/-- `decode` is defined exactly on the strings of the alphabet (R264). -/
theorem documentDecode_isSome_iff (x : List Byte) : (documentDecode x).isSome = true ↔ ∀ c ∈ x, c ∈ alphabet := by
  have hpad : (List.replicate (documentDecPad x.length) (alpha 84)).all inAlphabet = true := by
    simp [inAlphabet_alpha]
  simp only [documentDecode, List.all_append, hpad, Bool.and_true, ← inAlphabet_iff_mem, ← List.all_eq_true]
  split <;> simp [*]

/-! ### The obligations -/

/-- Settles O57: group by group, `DEC` recovers the bytes of what `ENC` encoded. -/
theorem documentDecodeInvertsEncode : Obligations.DocumentDecodeInvertsEncode := by
  unfold Obligations.DocumentDecodeInvertsEncode
  exact fun b => (documentDecode_documentEncode b).1

/-- Settles O56: the procedures compute `encode` and `decode`, `decode` inverts `encode`, and no group of an encoded
buffer sets WIDE. -/
theorem roundTripReturnsTheBuffer : Obligations.RoundTripReturnsTheBuffer := by
  unfold Obligations.RoundTripReturnsTheBuffer
  intro junk b s hb hs
  obtain ⟨t, hencode, hst⟩ := encodeBuffer_returned junk hb hs
  have ht : t.regs.flagsClear := flagsClear_of_status_eq hst hs
  obtain ⟨hdec, hwide⟩ := documentDecode_documentEncode b
  have hparts : ∀ (junk' : Nat → Nat → Byte) (parts : List (List Byte)), parts.flatten = documentEncode b →
      splitLegal 5 parts →
        ∃ u, decodeParts junk' parts t = some (.returned b, u) ∧ u.regs.status = s.regs.status := by
    intro junk' parts hflat hsplit
    have h := decodeParts_decodeCall junk' 0 hsplit ht
    rwa [hflat, hdec, hwide, DecodeCall, Status.orWide_false, hst] at h
  refine ⟨_, t, hencode, fun junk' hx => ?oneCall, hparts, fun junk' => ?longest⟩
  case oneCall =>
    have h := decodeBuffer_decodeCall junk' hx ht
    rwa [hdec, hwide, DecodeCall, Status.orWide_false, hst] at h
  case longest =>
    exact hparts junk' _ (cutEvery_flatten _ _ _) (cutEvery_splitLegal 5 _ _ _ rfl (by decide) (by decide) le_rfl)

/-- Settles O59: `decode` is defined on an encoded buffer, so its characters are in the alphabet; it is not defined on
a string with a character outside, so decoding that sets INVCHAR. -/
theorem buffersStayInTheAlphabet : Obligations.BuffersStayInTheAlphabet := by
  unfold Obligations.BuffersStayInTheAlphabet
  refine ⟨fun junk b s hb hs => ?encoded, fun junk x s hx hout => ?rejected⟩
  case encoded =>
    obtain ⟨t, hcall, -⟩ := encodeBuffer_returned junk hb hs
    refine ⟨_, t, hcall, (documentDecode_isSome_iff _).mp ?_⟩
    rw [(documentDecode_documentEncode b).1, Option.isSome_some]
  case rejected =>
    have hnone : documentDecode x = none := by
      rw [← Option.not_isSome_iff_eq_none, documentDecode_isSome_iff]
      simpa using hout
    obtain ⟨out, t, hcall, hdec, -⟩ := decodeBuffer_document junk s hx
    rw [hnone] at hdec
    exact ⟨_, t, hcall.trans (finishCall_err _ _ hdec.err_of_none),
      t.regs.status.toWord_getLsbD_flags.1.trans hdec.invchar_of_none⟩

end Sys2Proof.Machine
end

section
/-! PROOFS. Errors (spec/60_exceptions.md R300, R307, R308): what each event at the port meets, and that its step ends
as the table of causes says. -/

namespace Sys2Proof.Machine

open Sys2Proof.Claims

variable {s : State} {w : Word} {rest : List BusEvent}

/-! ### What an event meets (R308) -/

theorem eventCause_read_illFormed {addr : Offset} {size : Nat} (h : accessIllFormed addr size) (r : Regs) :
    eventCause (.read addr size) r = .busError := by
  simp [eventCause, busTarget_eq_none_iff_illFormed.mpr h]

theorem eventCause_write_illFormed {addr : Offset} {size : Nat} (h : accessIllFormed addr size) (v : Word)
    (r : Regs) : eventCause (.write addr size v) r = .busError := by
  simp [eventCause, busTarget_eq_none_iff_illFormed.mpr h]

theorem eventCause_read_offset (reg : Reg) (r : Regs) : eventCause (.read reg.offset 4) r = .none := by
  simp [eventCause]

theorem eventCause_write_reg {reg : Reg} (h : reg ≠ .cmd) (v : Word) (r : Regs) :
    eventCause (.write reg.offset 4 v) r = .none := by
  cases reg with
  | cmd => exact absurd rfl h
  | id | status | word | cha | chb | diga | digb | keep | len | padinfo | groups | outlen | lutin | lutout =>
    simp [eventCause]

theorem eventCause_write_cmd_of_decode_ok {i : Instr} (h : decode w = .ok i) (r : Regs) :
    eventCause (.write (Reg.offset .cmd) 4 w) r = commandCause i r := by
  simp [eventCause, h]

theorem eventCause_write_cmd_of_decode_error {e : DecodeError} (h : decode w = .error e) (r : Regs) :
    eventCause (.write (Reg.offset .cmd) 4 w) r = .illegalCommand := by
  simp [eventCause, h]

/-- A word that is not `Legal` meets the illegal command before anything else of a command (R308). -/
theorem eventCause_write_cmd_of_not_commandLegal (hw : ¬ commandLegal w) (r : Regs) :
    eventCause (.write (Reg.offset .cmd) 4 w) r = .illegalCommand := by
  cases hd : decode w with
  | ok i => exact absurd (commandLegal_of_decode_ok hd) hw
  | error e => exact eventCause_write_cmd_of_decode_error hd r

/-- The bus error belongs to the access, never to a command (R306). -/
theorem commandCause_ne_busError (i : Instr) (r : Regs) : commandCause i r ≠ .busError := by
  cases i with
  | nop | pade | padd | srst => nofun
  | enc nb =>
    rw [commandCause_enc]
    split <;> nofun
  | dec nc =>
    rw [commandCause_dec]
    split_ifs <;> nofun
  | alook | ilook =>
    rw [commandCause]
    split <;> nofun

/-! ### How a step ends that meets a cause (R307) -/

theorem Regs.reset_flag (f : Flag) : Regs.reset.status.flag f = false := by
  cases f <;> rfl

/-- `EndsBy st c o`: an access begun with STATUS `st` that meets the cause `c` ends by the outcome `o`, as the last
column of R307's table says: the bus error by a fault, every other cause by a next state in which its flag is set and
no other flag is newly set. -/
inductive EndsBy (st : Status) : Cause → Host.Outcome State Fault Refusal → Prop where
  | fault (f : Fault) : EndsBy st .busError (.fault f)
  | next {c : Cause} {t : State} (hc : c ≠ .busError) (hset : ∀ f, c.flag = some f → t.regs.status.flag f = true)
    (honly : ∀ f, t.regs.status.flag f = true → st.flag f = true ∨ c.flag = some f) : EndsBy st c (.next t)

section EndsBy

variable {st : Status} {c : Cause} {o : Host.Outcome State Fault Refusal} {t : State}

theorem EndsBy.of_flag_eq (hc : c ≠ .busError)
    (h : ∀ f, t.regs.status.flag f = (st.flag f || decide (c.flag = some f))) : EndsBy st c (.next t) :=
  .next hc (fun f hf => by rw [h, decide_eq_true hf, Bool.or_true]) (fun f hf => by simpa [h] using hf)

/-- An access that meets nothing may clear flags but sets none. -/
theorem EndsBy.of_none (h : ∀ f, t.regs.status.flag f = true → st.flag f = true) : EndsBy st .none (.next t) :=
  .next nofun nofun fun f hf => .inl (h f hf)

/-- After `SRST` and the hardware reset no flag is set (R241, R341). -/
theorem EndsBy.of_reset (h : t.regs = Regs.reset) : EndsBy st .none (.next t) :=
  .of_none fun f hf => by
    rw [h, Regs.reset_flag] at hf
    cases hf

theorem EndsBy.exists_fault_iff (h : EndsBy st c o) : (∃ f, o = .fault f) ↔ c = .busError := by
  cases h with
  | fault f => exact ⟨fun _ => rfl, fun _ => ⟨f, rfl⟩⟩
  | next hc _ _ => exact ⟨nofun, fun h => absurd h hc⟩

theorem EndsBy.exists_next (h : EndsBy st c o) (hc : c ≠ .busError) :
    ∃ t, o = .next t ∧ (∀ f, c.flag = some f → t.regs.status.flag f = true) ∧
      (∀ f, t.regs.status.flag f = true → st.flag f = true ∨ c.flag = some f) := by
  cases h with
  | fault f => exact absurd rfl hc
  | next _ hset honly => exact ⟨_, rfl, hset, honly⟩

end EndsBy

/-- A W1C write to STATUS clears flags; no other host's write touches one (R31, R63). -/
theorem Regs.flag_of_writeReg {r : Regs} {v : Word} {reg : Reg} {f : Flag}
    (h : (r.writeReg v reg).status.flag f = true) : r.status.flag f = true := by
  cases reg with
  | status => exact r.status.flag_of_writeOneToClear v f h
  | id | cmd | word | cha | chb | diga | digb | keep | len | padinfo | groups | outlen | lutin | lutout => exact h

/-- `SRST` meets nothing and clears every flag; any other command sets the flag of its cause on top of those set. -/
theorem exec_endsBy (i : Instr) (s : State) : EndsBy s.regs.status (commandCause i s.regs) (exec i s) := by
  obtain ⟨r', hr', he⟩ := exec_effect i s
  rw [hr']
  by_cases hi : i = .srst
  · subst hi
    cases he
    exact .of_reset rfl
  · refine .of_flag_eq (commandCause_ne_busError i s.regs) fun f => ?_
    rw [State.withRegs_regs, he.status hi, Status.flag_note]

/-- A write to CMD ends by the cause of its word, which sets ILLCMD or runs a command (R92, R93). -/
theorem memWrite_cmd_endsBy (w : Word) (s : State) :
    EndsBy s.regs.status (eventCause (.write (Reg.offset .cmd) 4 w) s.regs) (memWrite (Reg.offset .cmd) 4 w s) := by
  rw [memWrite_cmd]
  rcases execute_cases w s with ⟨i, hd, he⟩ | ⟨e, hd, he⟩
  · rw [he, eventCause_write_cmd_of_decode_ok hd]
    exact exec_endsBy i s
  · rw [he, eventCause_write_cmd_of_decode_error hd]
    exact .of_flag_eq nofun fun f => by simp [Cause.flag]

/-- Every write ends by its cause. -/
theorem memWrite_endsBy (addr : Offset) (size : Nat) (v : Word) (s : State) :
    EndsBy s.regs.status (eventCause (.write addr size v) s.regs) (memWrite addr size v s) := by
  by_cases hill : accessIllFormed addr size
  · rw [memWrite_illFormed v s hill, eventCause_write_illFormed hill]
    exact .fault _
  · obtain ⟨reg, rfl, rfl⟩ := exists_reg_of_not_illFormed hill
    by_cases hcmd : reg = .cmd
    · subst hcmd
      exact memWrite_cmd_endsBy v s
    · rw [memWrite_reg reg v s hcmd, eventCause_write_reg hcmd]
      exact .of_none fun f => Regs.flag_of_writeReg

/-- Every step with an event pending ends by the cause of that event. -/
theorem step_endsBy {e : BusEvent} (hp : s.pending = e :: rest) :
    EndsBy s.regs.status (eventCause e s.regs) (step s) := by
  cases e with
  | read addr size =>
    by_cases hill : accessIllFormed addr size
    · rw [step_of_read_illFormed hp hill, eventCause_read_illFormed hill]
      exact .fault _
    · obtain ⟨reg, rfl, rfl⟩ := exists_reg_of_not_illFormed hill
      rw [step_of_read_offset hp, eventCause_read_offset]
      exact .of_none fun f hf => hf
  | write addr size v =>
    rw [step_of_write hp]
    exact memWrite_endsBy addr size v (s.complete rest .writeDone)
  | hardReset =>
    rw [step_hardReset hp]
    exact .of_reset rfl

/-- Settles O22: the step ends by the cause of its event; an illegal word's cause is the illegal command. -/
theorem oneCausePerAccess : Obligations.OneCausePerAccess := by
  unfold Obligations.OneCausePerAccess
  intro s e rest hp
  have hends := step_endsBy hp
  refine ⟨hends.exists_fault_iff, ?illegalWord, hends.exists_next⟩
  case illegalWord =>
    rintro w rfl hw
    exact eventCause_write_cmd_of_not_commandLegal hw s.regs

end Sys2Proof.Machine
end

section
/-! PROOFS. Reset and hazards (spec/70_reset_and_hazards.md): what the block reads and computes from the reset state,
that a write is seen by the next read, and that nothing happens after the last access. -/

namespace Sys2Proof.Machine

open Sys2Proof.Claims

/-! ### A write and the read after it (R344) -/

theorem ne_cmd_of_operandReg {reg : Reg} (h : operandReg reg) : reg ≠ .cmd := by
  rintro rfl
  simp [operandReg] at h

/-- A byte register keeps the low byte of what is written to it. -/
theorem setWidth_eight_setWidth (v : Word) : (v.setWidth 8).setWidth 32 = v &&& 0x000000FF := by
  apply BitVec.eq_of_toNat_eq
  have hbyte : v.toNat % 2 ^ 8 < 2 ^ 32 := by omega
  rw [BitVec.toNat_setWidth, BitVec.toNat_setWidth, Nat.mod_eq_of_lt hbyte, BitVec.toNat_and]
  exact (Nat.and_two_pow_sub_one_eq_mod v.toNat 8).symm

/-- An operand register reads back what was written to it, less its reserved bits (R63, R67). -/
theorem Regs.readReg_writeReg_same {reg : Reg} (h : operandReg reg) (r : Regs) (v : Word) :
    (r.writeReg v reg).readReg reg = v &&& definedBits reg := by
  have hword : v = v &&& 0xFFFFFFFF := BitVec.and_allOnes.symm
  rcases h with rfl | rfl | rfl | rfl | rfl
  · exact hword
  · exact hword
  · exact setWidth_eight_setWidth v
  · exact hword
  · exact setWidth_eight_setWidth v

/-- A register write changes no other register's reading (R63). -/
theorem Regs.readReg_writeReg_of_ne {reg reg' : Reg} (h : reg' ≠ reg) (r : Regs) (v : Word) :
    (r.writeReg v reg).readReg reg' = r.readReg reg' := by
  cases reg with
  | id | cmd | diga | digb | keep | padinfo | groups | outlen | lutout => rfl
  | status | word | cha | chb | len | lutin =>
    cases reg' <;> simp [Regs.writeReg, Regs.readReg, Regs.digaWord] at h ⊢

/-- Settles O15: a register write completes, and the two reads are of the same register and of another one. -/
theorem operandWriteIsReadBack : Obligations.OperandWriteIsReadBack := by
  unfold Obligations.OperandWriteIsReadBack
  intro s reg v hreg
  refine ⟨_, memWrite_reg reg v s (ne_cmd_of_operandReg hreg), ?same, fun reg' hne => ?other, rfl, rfl, rfl⟩
  case same => rw [memRead_offset, State.withRegs_regs, Regs.readReg_writeReg_same hreg]
  case other => rw [memRead_offset, memRead_offset, State.withRegs_regs, Regs.readReg_writeReg_of_ne hne]

/-! ### After the last access (R347) -/

theorem step_of_pending_nil {s : State} (hp : s.pending = []) : step s = .next s := by
  simp [step, busStep, hp]

/-- Settles O18: by induction on the steps, each of which leaves the state. -/
theorem blockHoldsAfterLastAccess : Obligations.BlockHoldsAfterLastAccess := by
  unfold Obligations.BlockHoldsAfterLastAccess
  intro k s hp
  have hstep : Sys2Proof.core.step s = .next s := step_of_pending_nil hp
  induction k with
  | zero => rfl
  | succ k ih => simpa only [Host.Core.run, hstep] using ih

/-! ### The reset state (R340, R341) -/

theorem Regs.reset_readReg (reg : Reg) : Regs.reset.readReg reg = if reg = .id then 0x4C583835 else 0 := by
  cases reg <;> rfl

/-- Settles O26: a read answers the register, and each register's reset value is known. -/
theorem resetRegistersReadZero : Obligations.ResetRegistersReadZero := by
  unfold Obligations.ResetRegistersReadZero
  intro reg
  exact (memRead_offset reg State.reset).trans (congrArg Except.ok (Regs.reset_readReg reg))

/-- Settles O28: the registers are the reset ones, and a read depends on nothing else. -/
theorem hardwareResetRestoresTheResetState : Obligations.HardwareResetRestoresTheResetState := by
  unfold Obligations.HardwareResetRestoresTheResetState
  intro s rest hp
  exact ⟨_, step_hardReset hp, fun r => memRead_congr_regs rfl _ _, rfl, rfl, rfl, rfl⟩

/-- Settles O52: the reset registers are legal, and no access has been made or answered. -/
theorem resetMeetsTheInvariant : Obligations.ResetMeetsTheInvariant := ⟨Regs.reset_legal, rfl⟩

/-! ### Commands on operands never written (R342) -/

/-- The reset characters are codes 0, outside the alphabet, so `DEC` stops at lane 0 (R184). -/
theorem firstInvalid_reset_chars {nc : Nat} (h : 0 < nc) : firstInvalid nc Regs.reset.chars = some 0 := by
  rw [firstInvalid_eq_some]
  exact ⟨h, by decide, fun j hj => absurd hj (Fin.not_lt_zero j)⟩

/-- Settles O29: `ENC` encodes the word 0, `DEC` finds lane 0 invalid, `PADE` and `PADD` take the length 0. -/
theorem unwrittenOperandsReadAsReset : Obligations.UnwrittenOperandsReadAsReset := by
  unfold Obligations.UnwrittenOperandsReadAsReset
  refine ⟨⟨_, execEnc_legal State.reset 4 (by decide), ?enc⟩, ?dec, ⟨_, exec_pade State.reset, ?pade, rfl, rfl⟩,
    ⟨_, exec_padd State.reset, ?padd, rfl, rfl⟩⟩
  case enc =>
    have hgroup : Regs.reset.encGroup 4 = 0 := Regs.encGroup_four _
    refine (Regs.afterEnc_chars_toList Regs.reset 4).trans ?_
    rw [hgroup]
    decide
  case dec =>
    have hlane := firstInvalid_reset_chars Nat.one_pos
    exact ⟨_, execDec_invalid State.reset 1 (by decide) 0 hlane, rfl, rfl⟩
  case pade => exact Regs.afterPade_outlen33 Regs.reset
  case padd => rfl

end Sys2Proof.Machine
end
